-- ==== Sys2Proof/Word.lean ====
section
/-! DEFINITION. The word types of the block (spec/00_scope.md section 6): every value is unsigned. -/

namespace Sys2Proof

/-- `u8`: logical and wire bytes, the checksum, one buffer element. -/
abbrev Byte := BitVec 8

/-- `u16`: LEN, SRC, DST, CAPACITY and the decoder's 16-bit accumulators. -/
abbrev Half := BitVec 16

/-- `u18`: buffer indices and `olen` (R23, R71). -/
abbrev Index := BitVec 18

/-- The response data word `rsp_data[31:0]` (R75). -/
abbrev RspData := BitVec 32

/-- The command word `cw[63:0]` (R70). -/
abbrev CmdWord := BitVec 64

end Sys2Proof
end

