-- ==== Sys2Proof/Syntax.lean ====
section
/-! DEFINITION. The commands of the block, one constructor per row of spec/opcode_table.json (R72), with
the operands of R71 and R76. -/

namespace Sys2Proof

/-- A command with its operands. -/
inductive Instr where
  /-- ENC_ASSEMBLE (R120): LEN, SRC, DST and the payload of the data phase. -/
  | encAssemble (len src dst : Half) (payload : List Byte)
  /-- ENC_READ_LEN (R123). -/
  | encReadLen
  /-- ENC_READ_BYTE (R124): IDX. -/
  | encReadByte (idx : Index)
  /-- DEC_PUSH_BYTE (R140): BYTE. -/
  | decPushByte (b : Byte)
  /-- DEC_CLEAR (R151). -/
  | decClear
  /-- DEC_READ_STATUS (R152). -/
  | decReadStatus
  /-- DEC_READ_LEN (R153). -/
  | decReadLen
  /-- DEC_READ_SRC (R154). -/
  | decReadSrc
  /-- DEC_READ_DST (R155). -/
  | decReadDst
  /-- DEC_READ_BYTE (R156): IDX. -/
  | decReadByte (idx : Index)
deriving DecidableEq, Repr

end Sys2Proof
end

