-- ==== Sys2Proof/WellFormed.lean ====
section
/-! DEFINITION. The one check on a command term (spec/30_encoding.md R76): the payload list of ENC_ASSEMBLE
has LEN bytes. Every other operand is exactly as wide as its field. -/

namespace Sys2Proof

/-- R76: a command term whose list length differs from LEN is ill-formed. -/
def Instr.wellFormed : Instr → Bool
  | .encAssemble len _ _ payload => payload.length == len.toNat
  | .encReadLen => true
  | .encReadByte _ => true
  | .decPushByte _ => true
  | .decClear => true
  | .decReadStatus => true
  | .decReadLen => true
  | .decReadSrc => true
  | .decReadDst => true
  | .decReadByte _ => true

end Sys2Proof
end

