-- ==== Sys2Proof/Decode.lean ====
section
/-! DEFINITION. The command port's encoding (spec/30_encoding.md R70 to R77): the decoder of a command word
with its data phase, total and refusing by name, and the encoder written from the same tables. -/

namespace Sys2Proof

/-- Why a command spells no instruction. -/
inductive DecodeError where
  /-- OPC is `0x0` or `0xB` to `0xF` (R73). -/
  | reservedOpcode
  /-- A reserved bit, of RSV or of the operand area, is 1 (R73). -/
  | reservedBits
  /-- The data phase does not have the length the word announces (R74, R76; log 8). -/
  | dataPhase
deriving DecidableEq, Repr

/-! ### Fields (R70, R71) -/

/-- `OPC = cw[63:60]`. -/
def opcField (cw : CmdWord) : BitVec 4 := cw.extractLsb' 60 4
/-- `RSV = cw[59:48]`. -/
def rsvField (cw : CmdWord) : BitVec 12 := cw.extractLsb' 48 12
/-- `LEN = cw[47:32]`. -/
def lenField (cw : CmdWord) : Half := cw.extractLsb' 32 16
/-- `SRC = cw[31:16]`. -/
def srcField (cw : CmdWord) : Half := cw.extractLsb' 16 16
/-- `DST = cw[15:0]`. -/
def dstField (cw : CmdWord) : Half := cw.extractLsb' 0 16
/-- `BYTE = cw[7:0]`. -/
def byteField (cw : CmdWord) : Byte := cw.extractLsb' 0 8
/-- `IDX = cw[17:0]`. -/
def idxField (cw : CmdWord) : Index := cw.extractLsb' 0 18
/-- The operand bits format B reserves, `cw[47:8]`. -/
def reservedB (cw : CmdWord) : BitVec 40 := cw.extractLsb' 8 40
/-- The operand bits format I reserves, `cw[47:18]`. -/
def reservedI (cw : CmdWord) : BitVec 30 := cw.extractLsb' 18 30
/-- The operand bits format N reserves, `cw[47:0]`. -/
def reservedN (cw : CmdWord) : BitVec 48 := cw.extractLsb' 0 48

/-! ### Decoding -/

/-- A command without a data phase (R74). -/
def withoutData (data : List Byte) (i : Instr) : Except DecodeError Instr :=
  match data with
  | [] => .ok i
  | _ :: _ => .error .dataPhase

/-- Format A, with its data phase of LEN bytes (R71, R76). -/
def decodeA (cw : CmdWord) (data : List Byte) : Except DecodeError Instr :=
  if data.length = (lenField cw).toNat then
    .ok (.encAssemble (lenField cw) (srcField cw) (dstField cw) data)
  else .error .dataPhase

/-- Format B (R71). -/
def decodeB (cw : CmdWord) (data : List Byte) (mk : Byte → Instr) : Except DecodeError Instr :=
  if reservedB cw = 0 then withoutData data (mk (byteField cw)) else .error .reservedBits

/-- Format I (R71). -/
def decodeI (cw : CmdWord) (data : List Byte) (mk : Index → Instr) : Except DecodeError Instr :=
  if reservedI cw = 0 then withoutData data (mk (idxField cw)) else .error .reservedBits

/-- Format N (R71). -/
def decodeN (cw : CmdWord) (data : List Byte) (i : Instr) : Except DecodeError Instr :=
  if reservedN cw = 0 then withoutData data i else .error .reservedBits

/-- The opcode map of R72, after the RSV check of R70. -/
def decode (cw : CmdWord) (data : List Byte) : Except DecodeError Instr :=
  if rsvField cw = 0 then
    match (opcField cw).toNat with
    | 1 => decodeA cw data
    | 2 => decodeN cw data .encReadLen
    | 3 => decodeI cw data .encReadByte
    | 4 => decodeB cw data .decPushByte
    | 5 => decodeN cw data .decClear
    | 6 => decodeN cw data .decReadStatus
    | 7 => decodeN cw data .decReadLen
    | 8 => decodeN cw data .decReadSrc
    | 9 => decodeN cw data .decReadDst
    | 10 => decodeI cw data .decReadByte
    | _ => .error .reservedOpcode
  else .error .reservedBits

/-! ### Encoding -/

/-- A command word with RSV = 0 (R70). -/
def wordOf (opc : BitVec 4) (operands : BitVec 48) : CmdWord :=
  opc ++ 0#12 ++ operands

/-- The 64-bit word of a command (R71, R72). -/
def encodeWord : Instr → CmdWord
  | .encAssemble len src dst _ => wordOf 0x1 (len ++ src ++ dst)
  | .encReadLen => wordOf 0x2 0
  | .encReadByte idx => wordOf 0x3 (0#30 ++ idx)
  | .decPushByte b => wordOf 0x4 (0#40 ++ b)
  | .decClear => wordOf 0x5 0
  | .decReadStatus => wordOf 0x6 0
  | .decReadLen => wordOf 0x7 0
  | .decReadSrc => wordOf 0x8 0
  | .decReadDst => wordOf 0x9 0
  | .decReadByte idx => wordOf 0xA (0#30 ++ idx)

/-- The data phase of a command: the payload of ENC_ASSEMBLE, nothing otherwise (R74, R76). -/
def encodeData : Instr → List Byte
  | .encAssemble _ _ _ payload => payload
  | .encReadLen => []
  | .encReadByte _ => []
  | .decPushByte _ => []
  | .decClear => []
  | .decReadStatus => []
  | .decReadLen => []
  | .decReadSrc => []
  | .decReadDst => []
  | .decReadByte _ => []

/-! ### The opcode table (spec/opcode_table.json) -/

/-- One row: a word is of the row when it agrees with `pattern` on the bits of `mask`. -/
structure OpcodeRow where
  mnemonic : String
  pattern  : CmdWord
  mask     : CmdWord
deriving DecidableEq, Repr

/-- The row of a command. -/
def rowOf : Instr → OpcodeRow
  | .encAssemble _ _ _ _ => ⟨"ENC_ASSEMBLE", 0x1000000000000000, 0xFFFF000000000000⟩
  | .encReadLen => ⟨"ENC_READ_LEN", 0x2000000000000000, 0xFFFFFFFFFFFFFFFF⟩
  | .encReadByte _ => ⟨"ENC_READ_BYTE", 0x3000000000000000, 0xFFFFFFFFFFFC0000⟩
  | .decPushByte _ => ⟨"DEC_PUSH_BYTE", 0x4000000000000000, 0xFFFFFFFFFFFFFF00⟩
  | .decClear => ⟨"DEC_CLEAR", 0x5000000000000000, 0xFFFFFFFFFFFFFFFF⟩
  | .decReadStatus => ⟨"DEC_READ_STATUS", 0x6000000000000000, 0xFFFFFFFFFFFFFFFF⟩
  | .decReadLen => ⟨"DEC_READ_LEN", 0x7000000000000000, 0xFFFFFFFFFFFFFFFF⟩
  | .decReadSrc => ⟨"DEC_READ_SRC", 0x8000000000000000, 0xFFFFFFFFFFFFFFFF⟩
  | .decReadDst => ⟨"DEC_READ_DST", 0x9000000000000000, 0xFFFFFFFFFFFFFFFF⟩
  | .decReadByte _ => ⟨"DEC_READ_BYTE", 0xA000000000000000, 0xFFFFFFFFFFFC0000⟩

/-- The ten rows. -/
def opcodeTable : List OpcodeRow :=
  [.encAssemble 0 0 0 [], .encReadLen, .encReadByte 0, .decPushByte 0, .decClear, .decReadStatus,
    .decReadLen, .decReadSrc, .decReadDst, .decReadByte 0].map rowOf

/-! ### The opcode table's numbering of bits -/

/-- The next `n` bytes of a number, least significant first: payload byte `k` is bits `8k+7..8k`. -/
def dataBytes : Nat → Nat → List Byte
  | 0, _ => []
  | n + 1, bits => BitVec.ofNat 8 bits :: dataBytes n (bits / 256)

/-- How many data-phase bytes follow a word (R74): LEN for OPC = 1, none otherwise. -/
def dataLength (cw : CmdWord) : Nat :=
  if opcField cw = 0x1 then (lenField cw).toNat else 0

/-- The command word in the low 64 of the table's `nbits` bits. -/
def tableWord (nbits w : Nat) : CmdWord :=
  BitVec.ofNat 64 (w % 2 ^ nbits)

/-- The data phase in the bits above 63, zero above `nbits` (log 9). -/
def tableData (nbits w : Nat) : List Byte :=
  dataBytes (dataLength (tableWord nbits w)) (w % 2 ^ nbits / 2 ^ 64)

/-- The instruction the decoder reads from a table word. -/
def decodeTableWord (nbits w : Nat) : Option Instr :=
  (decode (tableWord nbits w) (tableData nbits w)).toOption

end Sys2Proof
end

