-- ==== Sys2Proof/Config.lean ====
section
/-! DEFINITION. What an instance fixes (spec/00_scope.md R6 to R8): the protocol constants, the three
parameters and the sizes derived from them. -/

namespace Sys2Proof

/-- `FLAG`, the start delimiter (R7). -/
abbrev Config.flagByte : Byte := 0x7E

/-- `ESC`, the escape byte (R7). -/
abbrev Config.escByte : Byte := 0x7D

/-- `MASK`, the escape XOR mask (R7). -/
abbrev Config.escMask : Byte := 0x20

/-- The three parameters of R6. Every value is legal (CAPACITY = 0 included, D30), so there is no check. -/
structure Params where
  /-- `CAPACITY`: the largest payload length, for both units. -/
  capacity   : Half
  /-- `CHECKSUM_EN`: a checksum byte ends every frame. -/
  checksumEn : Bool
  /-- `ADDRESS_EN`: source and destination addresses follow the length. -/
  addressEn  : Bool
deriving DecidableEq, Repr, Inhabited

/-- The parameters of this instance. The spec gives them no default (R6, D3), so the constant has no body:
no proof can see a value (log 1). -/
opaque Config.params : Params

/-- `OBUF_DEPTH` (R8). -/
def Params.obufDepth (p : Params) : Nat :=
  5 + 2 * p.capacity.toNat + 2 * p.checksumEn.toNat + 8 * p.addressEn.toNat

/-- `PBUF_DEPTH` (R8, conflict C2). -/
def Params.pbufDepth (p : Params) : Nat :=
  p.capacity.toNat

/-- The variant string `FRAMECODEC-C<c>A<a>-N<n>` (R2). -/
def Params.variant (p : Params) : String :=
  "FRAMECODEC-C" ++ (if p.checksumEn then "1" else "0") ++ "A" ++ (if p.addressEn then "1" else "0")
    ++ "-N" ++ toString p.capacity.toNat

end Sys2Proof
end

