-- ==== Sys2Proof/Machine/Operands.lean ====
section
/-! DEFINITION. Byte-level operand forms: the two bytes of a 16-bit field and the primitives ESCAPE, UNESCAPE
and ACCUM16 (spec/40_primitives.md R100 to R103). -/

namespace Sys2Proof.Machine

/-- `v[15:8]`. -/
def hiByte (v : Half) : Byte := v.extractLsb' 8 8

/-- `v[7:0]`. -/
def loByte (v : Half) : Byte := v.extractLsb' 0 8

/-- A 16-bit field as its two logical bytes, high byte first (R54). -/
def fieldBytes (v : Half) : List Byte := [hiByte v, loByte v]

/-- A byte the wire cannot carry as data: `FLAG` or `ESC` (R100). -/
def isSpecial (b : Byte) : Bool := b == Config.flagByte || b == Config.escByte

/-- `ESCAPE` (R100). -/
def escapeByte (b : Byte) : List Byte :=
  if isSpecial b then [Config.escByte, b ^^^ Config.escMask] else [b]

/-- `UNESCAPE` (R102): the escape flag after the byte, and the logical byte if one is complete. -/
def unescapeByte (esc : Bool) (b : Byte) : Bool × Option Byte :=
  if b = Config.escByte then (true, none)
  else if esc then (false, some (b ^^^ Config.escMask))
  else (false, some b)

/-- `ACCUM16` (R103). -/
def accum16 (acc : Half) (v : Byte) (high : Bool) : Half :=
  if high then acc + (v.setWidth 16 <<< 8) else acc + v.setWidth 16

end Sys2Proof.Machine
end

