-- ==== Sys2Proof/Machine/State.lean ====
section
/-! DEFINITION. The block's state (spec/10_state.md), the outcomes' reasons and the state after reset (R37). -/

namespace Sys2Proof.Machine

/-- The decoder's parser state `st` (R26). Its numeric code is `DecState.code`. -/
inductive DecState where
  | ready | sizeHigh | sizeLow | srcAddrHigh | srcAddrLow | dstAddrHigh | dstAddrLow
  | data | checksum | done | err
deriving DecidableEq, Repr

/-- The decoder's outward `status` (R32, R181). Its numeric code is `Status.code`. -/
inductive Status where
  | idle | inProgress | finished | sizeErr | checksumErr | specialCharErr
deriving DecidableEq, Repr

/-- A block-local buffer (R50): index and byte, indices strictly rising. An element that is not listed holds
no value (R37, R53). -/
abbrev Memory := List Host.Cell

/-- One response of the command port (R75). -/
structure Response where
  /-- `rsp_ok`. -/
  ok   : Bool
  /-- `rsp_data[31:0]`. -/
  data : RspData
deriving DecidableEq, Repr

/-- What the host can do to the block (R223): issue a command, a word with its data phase (R70, R76), or
apply `rst` (R210). -/
inductive HostMove where
  | command (word : CmdWord) (data : List Byte)
  | rst
deriving DecidableEq, Repr

/-- The encoder unit ENC (R21). -/
structure EncUnit where
  /-- `OBUF` (R22). -/
  obuf     : Memory
  /-- `olen` (R23). -/
  olen     : Index
  /-- `enc_fault` (R24). -/
  encFault : Bool
deriving DecidableEq, Repr

/-- The decoder unit DEC (R25). -/
structure DecUnit where
  /-- `st` (R26). -/
  st      : DecState
  /-- `esc` (R27). -/
  esc     : Bool
  /-- `len_acc` (R28). -/
  lenAcc  : Half
  /-- `cnt` (R29). -/
  cnt     : Half
  /-- `src_acc` (R30). -/
  srcAcc  : Half
  /-- `dst_acc` (R30). -/
  dstAcc  : Half
  /-- `csum_acc` (R31). -/
  csumAcc : Byte
  /-- `status` (R32). -/
  status  : Status
  /-- `PBUF` (R33). -/
  pbuf    : Memory
deriving DecidableEq, Repr

/-- The block: its parameters (R20, log 1), its two units, and its command port (log 2, log 3). -/
structure State where
  /-- The instance's parameters: configuration, which nothing writes (R20). -/
  params    : Params
  /-- The encoder unit. -/
  enc       : EncUnit
  /-- The decoder unit. -/
  dec       : DecUnit
  /-- The host's moves the block has not taken yet, oldest first. -/
  moves     : List HostMove
  /-- The responses the block has given, latest first (R224). -/
  responses : List Response
deriving DecidableEq, Repr

/-- Why a command ends in `fault(reason)` (R11). Each reason carries the state the fault leaves (log 5). -/
inductive Fault where
  /-- EncSizeViolation (R185), raised by ENC_ASSEMBLE with LEN > CAPACITY and by every encoder command while
  `enc_fault` is 1. Safe: the spec's own outcome, and the run ends there. -/
  | encSizeViolation (left : State)
  /-- AccessOutOfRange (R186), raised by ENC_READ_BYTE and DEC_READ_BYTE for an element that holds no value
  of the current frame. Safe: the spec's own outcome, never a value. -/
  | accessOutOfRange (left : State)
  /-- Raised by DEC_PUSH_BYTE in `DATA` when PBUF has no element `cnt` (R33). No state a run reaches has this
  (R29). Safe: the machine stops (log 7). -/
  | noPbufElement (left : State)
deriving DecidableEq, Repr

/-- Why a command is refused. -/
inductive Refusal where
  /-- An instruction without a meaning. Raised by no arm. Safe. -/
  | notModelled (mnemonic : String)
  /-- IllegalCommand (R73, R187), raised by the step for a word that spells no command. It carries the state
  it leaves (log 5). Safe: the spec's own outcome. -/
  | illegalCommand (left : State)
  /-- An ill-formed command (R76), raised by the step and by ENC_ASSEMBLE when the data phase is not as long
  as the word says. Safe: the spec refuses it before it reaches the machine (log 8). -/
  | illFormedCommand
deriving DecidableEq, Repr

/-- The encoder after reset (R37). -/
def EncUnit.reset : EncUnit :=
  { obuf := [], olen := 0, encFault := false }

/-- The decoder after reset (R37). -/
def DecUnit.reset : DecUnit :=
  { st := .ready, esc := false, lenAcc := 0, cnt := 0, srcAcc := 0, dstAcc := 0, csumAcc := 0,
    status := .idle, pbuf := [] }

/-- The block after reset (R37, R210): no move pending, no response given (log 2, log 3). -/
def State.reset : State :=
  { params := Config.params, enc := EncUnit.reset, dec := DecUnit.reset, moves := [], responses := [] }

end Sys2Proof.Machine
end

