-- ==== Sys2Proof/Machine/Flags.lean ====
section
/-! DEFINITION. The block's flag computations: the codes of `st` and `status` (R26, R181), the additive
checksum (R104) and the decoder's special-character condition (R142). -/

namespace Sys2Proof.Machine

/-- The 4-bit code of `st` (R26). -/
def DecState.code : DecState → BitVec 4
  | .ready => 0
  | .sizeHigh => 1
  | .sizeLow => 2
  | .srcAddrHigh => 3
  | .srcAddrLow => 4
  | .dstAddrHigh => 5
  | .dstAddrLow => 6
  | .data => 7
  | .checksum => 8
  | .done => 9
  | .err => 10

/-- The 3-bit code of `status` (R181). -/
def Status.code : Status → BitVec 3
  | .idle => 0
  | .inProgress => 1
  | .finished => 2
  | .sizeErr => 3
  | .checksumErr => 4
  | .specialCharErr => 5

/-- The sum of a list of bytes modulo 256. -/
def sumBytes : List Byte → Byte
  | [] => 0
  | b :: bs => b + sumBytes bs

/-- `s1` of R104: the sum of the length bytes, and of the address bytes when ADDRESS_EN = 1. -/
def headerSum (p : Params) (len src dst : Half) : Byte :=
  let s0 := hiByte len + loByte len
  if p.addressEn then s0 + hiByte src + loByte src + hiByte dst + loByte dst else s0

/-- `CHECKSUM` (R104). -/
def checksumOf (p : Params) (len src dst : Half) (payload : List Byte) : Byte :=
  0xFF - (headerSum p len src dst + sumBytes payload)

/-- The checksum the decoder expects from its running sum (R31, R148). -/
def expectedChecksum (csumAcc : Byte) : Byte := 0xFF - csumAcc

/-- The global error check of R140 step (2): a delimiter outside READY, or a second escape byte. -/
def specialCharError (st : DecState) (esc : Bool) (b : Byte) : Bool :=
  (b == Config.flagByte && st != .ready) || (b == Config.escByte && esc)

end Sys2Proof.Machine
end

