-- ==== Sys2Proof/Machine/Ops.lean ====
section
/-! DEFINITION. The named operations: buffer accesses (spec/20_memory.md), the response of a command (R75),
error and fault entry (spec/60_exceptions.md), and the two ways back, DEC_CLEAR and reset. -/

namespace Sys2Proof.Machine

/-! ### Buffers -/

/-- The canonical form: indices strictly rising. -/
abbrev Memory.wf (m : Memory) : Prop := m.Pairwise fun a b => a.1 < b.1

/-- `MemRead`: the byte an element holds, if it holds one (R53, log 6). -/
def Memory.read : Memory → Nat → Option Byte
  | [], _ => none
  | c :: m, i => if i = c.1 then some c.2 else Memory.read m i

/-- `MemWrite`: one byte (R58). -/
def Memory.write : Memory → Nat → Byte → Memory
  | [], i, v => [(i, v)]
  | c :: m, i, v =>
    if i < c.1 then (i, v) :: c :: m
    else if i = c.1 then (i, v) :: m
    else c :: Memory.write m i v

/-- Bytes written in order from an index upward (R51). -/
def Memory.writeFrom (m : Memory) (i : Nat) : List Byte → Memory
  | [] => m
  | v :: vs => Memory.writeFrom (Memory.write m i v) (i + 1) vs

/-! ### Responses -/

/-- A command answers the host; nothing else changes. -/
def State.answer (s : State) (r : Response) : State :=
  { s with responses := r :: s.responses }

/-- Outcome `ok` with `rsp_data = zext_32(v)` (R75). -/
def respond {w : Nat} (v : BitVec w) (s : State) : Host.Outcome State Fault Refusal :=
  .next (s.answer ⟨true, v.setWidth 32⟩)

/-! ### Faults (R185 to R187) -/

/-- `raise Fault(EncSizeViolation)` (R185): `enc_fault` is set, the response is code 1, nothing else changes. -/
def raiseEncSizeViolation (s : State) : Host.Outcome State Fault Refusal :=
  .fault (.encSizeViolation ({ s with enc := { s.enc with encFault := true } }.answer ⟨false, 1⟩))

/-- `raise Fault(AccessOutOfRange)` (R186): the response is code 2, nothing else changes. -/
def raiseAccessOutOfRange (s : State) : Host.Outcome State Fault Refusal :=
  .fault (.accessOutOfRange (s.answer ⟨false, 2⟩))

/-- `refuse(IllegalCommand)` (R187): the response is code 3, nothing else changes. -/
def refuseIllegalCommand (s : State) : Host.Outcome State Fault Refusal :=
  .refused (.illegalCommand (s.answer ⟨false, 3⟩))

/-- A buffer element answered if it holds a value of the current frame, the fault otherwise (R53). -/
def respondElement (m : Memory) (bound : Nat) (idx : Index) (s : State) :
    Host.Outcome State Fault Refusal :=
  if idx.toNat < bound then
    match m.read idx.toNat with
    | some v => respond v s
    | none => raiseAccessOutOfRange s
  else raiseAccessOutOfRange s

/-- An encoder command's first check (R188 item 2): the sticky fault flag. -/
def whenEncoderEnabled (s : State) (effect : Host.Outcome State Fault Refusal) :
    Host.Outcome State Fault Refusal :=
  if s.enc.encFault then raiseEncSizeViolation s else effect

/-! ### Decoder errors and the ways out of them -/

/-- Entry to ERR (R190): `st` and `status` change, nothing else is saved. -/
def DecUnit.recordError (d : DecUnit) (e : Status) : DecUnit :=
  { d with st := .err, status := e }

/-- Entry to ERR with SPECIAL_CHAR_ERR, which also clears `esc` (R142, R190). -/
def DecUnit.recordSpecialChar (d : DecUnit) : DecUnit :=
  { d.recordError .specialCharErr with esc := false }

/-- The way out of ERR and DONE (R192): every element but PBUF at its initial value (R151). -/
def DecUnit.clear (d : DecUnit) : DecUnit :=
  { DecUnit.reset with pbuf := d.pbuf }

/-- `rst` (R210): every element of both units at its reset value. The parameters, the moves still to come and
the responses already given are the host's and stay (log 12). -/
def State.applyReset (s : State) : State :=
  { s with enc := EncUnit.reset, dec := DecUnit.reset }

end Sys2Proof.Machine
end

