-- ==== Sys2Proof/Machine/DecoderPush.lean ====
section
/-! DEFINITION. DEC_PUSH_BYTE, the decoder's protocol state machine (spec/42_decoder.md R140 to R150). -/

namespace Sys2Proof.Machine

/-- `EXIT_DATA` (R140, R147). -/
def DecUnit.exitData (p : Params) (d : DecUnit) : DecUnit :=
  if p.checksumEn then { d with st := .checksum } else { d with st := .done, status := .finished }

/-- `ENTER_DATA(L)` (R140, R146). -/
def DecUnit.enterData (p : Params) (len : Half) (d : DecUnit) : DecUnit :=
  if len = 0 then d.exitData p else { d with st := .data }

/-- A logical byte enters the running sum (R149). -/
def DecUnit.addToSum (d : DecUnit) (v : Byte) : DecUnit :=
  { d with csumAcc := d.csumAcc + v }

/-- The byte that completes the length (R145, R146). -/
def DecUnit.takeSizeLow (p : Params) (v : Byte) (d : DecUnit) : DecUnit :=
  let len := accum16 d.lenAcc v false
  let d' := { d.addToSum v with lenAcc := len }
  if p.capacity < len then d'.recordError .sizeErr
  else if p.addressEn then { d' with st := .srcAddrHigh }
  else d'.enterData p len

/-- A payload byte (R147); `none` when PBUF has no element `cnt` (R33, log 7). -/
def DecUnit.takeData (p : Params) (v : Byte) (d : DecUnit) : Option DecUnit :=
  if d.cnt.toNat < p.pbufDepth then
    let d' := { d.addToSum v with pbuf := d.pbuf.write d.cnt.toNat v, cnt := d.cnt + 1 }
    some (if d.cnt.toNat + 1 = d.lenAcc.toNat then d'.exitData p else d')
  else none

/-- The received checksum (R148), which is not added to the sum. -/
def DecUnit.takeChecksum (v : Byte) (d : DecUnit) : DecUnit :=
  if v = expectedChecksum d.csumAcc then { d with st := .done, status := .finished }
  else d.recordError .checksumErr

/-- Step (5) of R140: one logical byte, dispatched on the state. No run brings the three last states here
(log 14). -/
def DecUnit.takeLogical (p : Params) (v : Byte) (d : DecUnit) : Option DecUnit :=
  match d.st with
  | .sizeHigh => some { d.addToSum v with lenAcc := accum16 d.lenAcc v true, st := .sizeLow }
  | .sizeLow => some (d.takeSizeLow p v)
  | .srcAddrHigh => some { d.addToSum v with srcAcc := accum16 d.srcAcc v true, st := .srcAddrLow }
  | .srcAddrLow => some { d.addToSum v with srcAcc := accum16 d.srcAcc v false, st := .dstAddrHigh }
  | .dstAddrHigh => some { d.addToSum v with dstAcc := accum16 d.dstAcc v true, st := .dstAddrLow }
  | .dstAddrLow => some (DecUnit.enterData p d.lenAcc { d.addToSum v with dstAcc := accum16 d.dstAcc v false })
  | .data => d.takeData p v
  | .checksum => some (d.takeChecksum v)
  | .ready => some d
  | .done => some d
  | .err => some d

/-- Steps (4) and (5) of R140: unescape, then take the logical byte if one is complete. -/
def DecUnit.takeWireByte (p : Params) (b : Byte) (d : DecUnit) : Option (DecUnit × Status) :=
  match unescapeByte d.esc b with
  | (esc, none) => some ({ d with esc := esc }, .inProgress)
  | (esc, some v) => (DecUnit.takeLogical p v { d with esc := esc }).map fun d' => (d', d'.status)

/-- The whole step of R140: the decoder after the byte and the status it responds with. -/
def DecUnit.push (p : Params) (b : Byte) (d : DecUnit) : Option (DecUnit × Status) :=
  if d.st = .done ∨ d.st = .err then some (d, d.status)
  else if specialCharError d.st d.esc b then some (d.recordSpecialChar, .specialCharErr)
  else if d.st = .ready then
    if b = Config.flagByte then some ({ d with st := .sizeHigh, status := .inProgress }, .inProgress)
    else some (d, .idle)
  else d.takeWireByte p b

/-- DEC_PUSH_BYTE (R140). -/
def execDecPushByte (b : Byte) (s : State) : Host.Outcome State Fault Refusal :=
  match s.dec.push s.params b with
  | some (d, r) => respond r.code { s with dec := d }
  | none => .fault (.noPbufElement s)

end Sys2Proof.Machine
end

