-- ==== Sys2Proof/Machine/DecoderRead.lean ====
section
/-! DEFINITION. DEC_CLEAR and the decoder's accessors (spec/42_decoder.md R151 to R156). -/

namespace Sys2Proof.Machine

/-- DEC_CLEAR (R151). -/
def execDecClear (s : State) : Host.Outcome State Fault Refusal :=
  respond 0#32 { s with dec := s.dec.clear }

/-- DEC_READ_STATUS (R152). -/
def execDecReadStatus (s : State) : Host.Outcome State Fault Refusal :=
  respond s.dec.status.code s

/-- DEC_READ_LEN (R153). -/
def execDecReadLen (s : State) : Host.Outcome State Fault Refusal :=
  respond s.dec.lenAcc s

/-- DEC_READ_SRC (R154). -/
def execDecReadSrc (s : State) : Host.Outcome State Fault Refusal :=
  respond s.dec.srcAcc s

/-- DEC_READ_DST (R155). -/
def execDecReadDst (s : State) : Host.Outcome State Fault Refusal :=
  respond s.dec.dstAcc s

/-- DEC_READ_BYTE (R156). -/
def execDecReadByte (idx : Index) (s : State) : Host.Outcome State Fault Refusal :=
  respondElement s.dec.pbuf s.dec.cnt.toNat idx s

end Sys2Proof.Machine
end

