-- ==== Sys2Proof/Machine/Encoder.lean ====
section
/-! DEFINITION. The encoder unit's commands (spec/41_encoder.md R120 to R124). -/

namespace Sys2Proof.Machine

/-- The logical bytes of a frame after the delimiter, in order (R78, R120). -/
def logicalBytes (p : Params) (len src dst : Half) (payload : List Byte) : List Byte :=
  fieldBytes len
    ++ (if p.addressEn then fieldBytes src ++ fieldBytes dst else [])
    ++ payload
    ++ (if p.checksumEn then [checksumOf p len src dst payload] else [])

/-- The wire bytes of a frame: the delimiter verbatim, then every logical byte escaped (R79, R120). -/
def frameBytes (p : Params) (len src dst : Half) (payload : List Byte) : List Byte :=
  Config.flagByte :: (logicalBytes p len src dst payload).flatMap escapeByte

/-- OBUF holds the bytes from index 0, `olen` counts them (R51, R120). -/
def EncUnit.emit (e : EncUnit) (out : List Byte) : EncUnit :=
  { e with obuf := e.obuf.writeFrom 0 out, olen := BitVec.ofNat 18 out.length }

/-- The assembly proper, after the checks: OBUF and `olen` written, `olen` answered (R120). -/
def assembleFrame (len src dst : Half) (payload : List Byte) (s : State) :
    Host.Outcome State Fault Refusal :=
  let out := frameBytes s.params len src dst payload
  respond (BitVec.ofNat 18 out.length) { s with enc := s.enc.emit out }

/-- ENC_ASSEMBLE (R120), its checks in the order of R188, after the term check of R76. -/
def execEncAssemble (len src dst : Half) (payload : List Byte) (s : State) :
    Host.Outcome State Fault Refusal :=
  if payload.length = len.toNat then
    whenEncoderEnabled s
      (if s.params.capacity < len then raiseEncSizeViolation s
       else assembleFrame len src dst payload s)
  else .refused .illFormedCommand

/-- ENC_READ_LEN (R123). -/
def execEncReadLen (s : State) : Host.Outcome State Fault Refusal :=
  whenEncoderEnabled s (respond s.enc.olen s)

/-- ENC_READ_BYTE (R124). -/
def execEncReadByte (idx : Index) (s : State) : Host.Outcome State Fault Refusal :=
  whenEncoderEnabled s (respondElement s.enc.obuf s.enc.olen.toNat idx s)

end Sys2Proof.Machine
end

