-- ==== Sys2Proof/Machine/Dispatch.lean ====
section
/-! DEFINITION. One arm per command (spec/30_encoding.md R72). -/

namespace Sys2Proof.Machine

def exec (i : Instr) (s : State) : Host.Outcome State Fault Refusal :=
  match i with
  | .encAssemble len src dst payload => Sys2Proof.Machine.execEncAssemble len src dst payload s
  | .encReadLen => Sys2Proof.Machine.execEncReadLen s
  | .encReadByte idx => Sys2Proof.Machine.execEncReadByte idx s
  | .decPushByte b => Sys2Proof.Machine.execDecPushByte b s
  | .decClear => Sys2Proof.Machine.execDecClear s
  | .decReadStatus => Sys2Proof.Machine.execDecReadStatus s
  | .decReadLen => Sys2Proof.Machine.execDecReadLen s
  | .decReadSrc => Sys2Proof.Machine.execDecReadSrc s
  | .decReadDst => Sys2Proof.Machine.execDecReadDst s
  | .decReadByte idx => Sys2Proof.Machine.execDecReadByte idx s

end Sys2Proof.Machine
end

