-- ==== Sys2Proof/Machine/Port.lean ====
section
/-! DEFINITION. The command port: how the block takes the host's next move (spec/70_reset_and_hazards.md
R223, spec/60_exceptions.md R188 item 1). -/

namespace Sys2Proof.Machine

/-- What the block does with a command that spells no instruction (R73, R76, R187). -/
def refuseCommand (e : DecodeError) (s : State) : Host.Outcome State Fault Refusal :=
  match e with
  | .reservedOpcode => refuseIllegalCommand s
  | .reservedBits => refuseIllegalCommand s
  | .dataPhase => .refused .illFormedCommand

/-- A command as issued: decoded, then executed (R11, R188). -/
def takeCommand (word : CmdWord) (data : List Byte) (s : State) : Host.Outcome State Fault Refusal :=
  match decode word data with
  | .ok i => exec i s
  | .error e => refuseCommand e s

/-- The next move in issue order (R63). With none pending the block takes no action (log 4). -/
def takeMove (s : State) : Host.Outcome State Fault Refusal :=
  match s.moves with
  | [] => .next s
  | .command word data :: rest => takeCommand word data { s with moves := rest }
  | .rst :: rest => .next { s with moves := rest }.applyReset

/-- A command issued ahead of every pending move. -/
def issueFirst (word : CmdWord) (data : List Byte) (s : State) : State :=
  { s with moves := .command word data :: s.moves }

end Sys2Proof.Machine
end

