-- ==== Sys2Proof/Machine/Step.lean ====
section
/-! DEFINITION. One step of the block: the host's next move (spec/00_scope.md R11). -/

namespace Sys2Proof.Machine

/-- One atomic step (R11, R59). -/
def step (s : State) : Host.Outcome State Fault Refusal :=
  takeMove s

/-- The state in which the next step takes the command of a table word: the host has issued it (log 4, log 9). -/
def State.withFetchWord (s : State) (nbits w : Nat) : State :=
  issueFirst (tableWord nbits w) (tableData nbits w) s

end Sys2Proof.Machine
end

