-- ==== Sys2Proof/Machine/Pseudo.lean ====
section
/-! DEFINITION. What the host builds out of commands: a run (spec/70_reset_and_hazards.md R224) and the two
pseudo-instructions (spec/30_encoding.md R86). -/

namespace Sys2Proof.Machine

/-- A command as the host issues it: its word and its data phase (R70, R76). -/
def moveOf (i : Instr) : HostMove :=
  .command (encodeWord i) (encodeData i)

/-- Commands executed in order, up to the first fault or refusal (R224). -/
def execAll : List Instr → State → Host.Outcome State Fault Refusal
  | [], s => .next s
  | i :: is, s =>
    match exec i s with
    | .next t => execAll is t
    | .fault r => .fault r
    | .refused r => .refused r

/-- `DEC_PUSH_BYTES` (R86). -/
def decPushBytes (bs : List Byte) : List Instr :=
  bs.map .decPushByte

/-- The data of the latest response; 0 before any. -/
def lastData (s : State) : RspData :=
  match s.responses with
  | [] => 0
  | r :: _ => r.data

/-- One round of `LOOPBACK`: `ENC_READ_BYTE i` returns `r`, then `DEC_PUSH_BYTE r` (R86). -/
def loopbackRound (i : Nat) (s : State) : Host.Outcome State Fault Refusal :=
  match exec (.encReadByte (BitVec.ofNat 18 i)) s with
  | .next t => exec (.decPushByte ((lastData t).setWidth 8)) t
  | .fault r => .fault r
  | .refused r => .refused r

/-- `n` rounds of `LOOPBACK` from index `i` on. -/
def loopbackFrom : Nat → Nat → State → Host.Outcome State Fault Refusal
  | 0, _, s => .next s
  | n + 1, i, s =>
    match loopbackRound i s with
    | .next t => loopbackFrom n (i + 1) t
    | .fault r => .fault r
    | .refused r => .refused r

/-- `LOOPBACK` (R86): the host reads the length, then passes each byte of OBUF to the decoder. A fault ends
the expansion, as it ends a run (R224, log 15). -/
def loopback (s : State) : Host.Outcome State Fault Refusal :=
  match exec .encReadLen s with
  | .next t => loopbackFrom (lastData t).toNat 0 t
  | .fault r => .fault r
  | .refused r => .refused r

end Sys2Proof.Machine
end

