-- ==== Sys2Proof/Machine/Asm.lean ====
section
/-! DEFINITION. The text syntax of test programs (spec/30_encoding.md R85, R86), as a total reader of lines.
It is the host's notation: no step of the block depends on it (log 13). -/

namespace Sys2Proof.Machine

/-- One line of a program: a command or a pseudo-instruction. -/
inductive AsmItem where
  | instr (i : Instr)
  | pushBytes (bs : List Byte)
  | loopback
deriving DecidableEq, Repr

/-- The mnemonic of a command (R72). -/
def mnemonicOf (i : Instr) : String := (rowOf i).mnemonic

/-! ### Characters -/

/-- Blanks at both ends removed. -/
def trimBlanks (cs : List Char) : List Char :=
  ((cs.dropWhile Char.isWhitespace).reverse.dropWhile Char.isWhitespace).reverse

/-- A list cut at every occurrence of a character. -/
def cutAt (sep : Char) : List Char → List (List Char)
  | [] => [[]]
  | c :: cs =>
    match cutAt sep cs with
    | [] => [[c]]
    | w :: ws => if c = sep then [] :: w :: ws else (c :: w) :: ws

/-- The rest of a text after a fixed beginning. -/
def afterText : List Char → List Char → Option (List Char)
  | [], cs => some cs
  | _ :: _, [] => none
  | k :: ks, c :: cs => if k = c then afterText ks cs else none

/-! ### Numbers: decimal, or hexadecimal with `0x` (R85) -/

/-- The value of one digit, in decimal or hexadecimal. -/
def digitValue (c : Char) : Option Nat :=
  if '0' ≤ c ∧ c ≤ '9' then some (c.toNat - '0'.toNat)
  else if 'a' ≤ c ∧ c ≤ 'f' then some (c.toNat - 'a'.toNat + 10)
  else if 'A' ≤ c ∧ c ≤ 'F' then some (c.toNat - 'A'.toNat + 10)
  else none

/-- Digits in a base, onto a value already read. -/
def digitsFrom (base : Nat) : Nat → List Char → Option Nat
  | acc, [] => some acc
  | acc, c :: cs =>
    match digitValue c with
    | some d => if d < base then digitsFrom base (acc * base + d) cs else none
    | none => none

/-- A nonempty digit string. -/
def digits (base : Nat) (cs : List Char) : Option Nat :=
  if cs.isEmpty then none else digitsFrom base 0 cs

/-- A number that fits `w` bits. -/
def readNumber (w : Nat) (cs : List Char) : Option (BitVec w) :=
  let n := match afterText ['0', 'x'] cs with
    | some hex => digits 16 hex
    | none => digits 10 cs
  match n with
  | some n => if n < 2 ^ w then some (BitVec.ofNat w n) else none
  | none => none

/-- Two-digit hexadecimal bytes (R85). -/
def readBytes : List (List Char) → Option (List Byte)
  | [] => some []
  | w :: ws =>
    match w.length == 2, digits 16 w, readBytes ws with
    | true, some b, some bs => some (BitVec.ofNat 8 b :: bs)
    | _, _, _ => none

/-- A byte list `[b0 b1 ...]` (R85). -/
def readByteList (cs : List Char) : Option (List Byte) :=
  match afterText ['['] cs, cs.getLast? with
  | some inside, some ']' => readBytes ((cutAt ' ' inside.dropLast).filter fun w => !w.isEmpty)
  | _, _ => none

/-! ### Operands -/

/-- ENC_ASSEMBLE's operands, in the order of R85; `src=` and `dst=` may be left out and are then 0. -/
def readAssemble (ops : List (List Char)) : Option Instr :=
  let (src, ops) := match ops with
    | op :: rest => (match afterText "src=".toList op with
        | some v => (readNumber 16 v, rest)
        | none => (some 0, op :: rest))
    | [] => (some 0, [])
  let (dst, ops) := match ops with
    | op :: rest => (match afterText "dst=".toList op with
        | some v => (readNumber 16 v, rest)
        | none => (some 0, op :: rest))
    | [] => (some 0, [])
  match src, dst, ops with
  | some src, some dst, [op] =>
    match (afterText "payload=".toList op).bind readByteList with
    | some payload =>
      if payload.length < 2 ^ 16 then
        some (.encAssemble (BitVec.ofNat 16 payload.length) src dst payload)
      else none
    | none => none
  | _, _, _ => none

/-- A line that takes no operand. -/
def readPlain (ops : List (List Char)) (item : AsmItem) : Option AsmItem :=
  if ops.isEmpty then some item else none

/-- A mnemonic with its operands (R85, R86). -/
def readItem (mnemonic : List Char) (ops : List (List Char)) : Option AsmItem :=
  match String.ofList mnemonic, ops with
  | "ENC_ASSEMBLE", ops => (readAssemble ops).map .instr
  | "ENC_READ_LEN", ops => readPlain ops (.instr .encReadLen)
  | "ENC_READ_BYTE", [op] => (readNumber 18 op).map fun n => .instr (.encReadByte n)
  | "DEC_PUSH_BYTE", [op] => (readNumber 8 op).map fun n => .instr (.decPushByte n)
  | "DEC_CLEAR", ops => readPlain ops (.instr .decClear)
  | "DEC_READ_STATUS", ops => readPlain ops (.instr .decReadStatus)
  | "DEC_READ_LEN", ops => readPlain ops (.instr .decReadLen)
  | "DEC_READ_SRC", ops => readPlain ops (.instr .decReadSrc)
  | "DEC_READ_DST", ops => readPlain ops (.instr .decReadDst)
  | "DEC_READ_BYTE", [op] => (readNumber 18 op).map fun n => .instr (.decReadByte n)
  | "DEC_PUSH_BYTES", [op] => (readByteList op).map .pushBytes
  | "LOOPBACK", ops => readPlain ops .loopback
  | _, _ => none

/-- One line (R85): `none` if it is not of the syntax, no item if it holds only blanks or a comment. -/
def readLine (line : List Char) : Option (List AsmItem) :=
  let text := trimBlanks (line.takeWhile (· ≠ ';'))
  if text.isEmpty then some []
  else
    let mnemonic := text.takeWhile fun c => !c.isWhitespace
    let rest := trimBlanks (text.dropWhile fun c => !c.isWhitespace)
    let ops := if rest.isEmpty then [] else (cutAt ',' rest).map trimBlanks
    (readItem mnemonic ops).map fun item => [item]

/-- The lines of a program, in order. -/
def readLines : List (List Char) → Option (List AsmItem)
  | [] => some []
  | l :: ls =>
    match readLine l, readLines ls with
    | some is, some js => some (is ++ js)
    | _, _ => none

/-- A program: one command per line (R85). -/
def readProgram (text : String) : Option (List AsmItem) :=
  readLines (cutAt '\n' text.toList)

/-- One item run by the host (R86). -/
def runItem (item : AsmItem) (s : State) : Host.Outcome State Fault Refusal :=
  match item with
  | .instr i => exec i s
  | .pushBytes bs => execAll (decPushBytes bs) s
  | .loopback => loopback s

/-- A program run by the host, up to the first fault or refusal (R224). -/
def runItems : List AsmItem → State → Host.Outcome State Fault Refusal
  | [], s => .next s
  | item :: items, s =>
    match runItem item s with
    | .next t => runItems items t
    | .fault r => .fault r
    | .refused r => .refused r

/-! ### Encodings as text (R85) -/

/-- One hexadecimal digit. -/
def hexDigit (n : Nat) : Char :=
  if n < 10 then Char.ofNat ('0'.toNat + n) else Char.ofNat ('A'.toNat + (n - 10))

/-- `n` hexadecimal digits of a number, most significant first, onto the text after them. -/
def hexDigits : Nat → Nat → List Char → List Char
  | 0, _, text => text
  | n + 1, v, text => hexDigits n (v / 16) (hexDigit (v % 16) :: text)

/-- A command word as 16 hexadecimal digits in groups of four (R85). -/
def wordText (cw : CmdWord) : String :=
  let group (k : Nat) := String.ofList (hexDigits 4 (cw.toNat / 2 ^ (16 * k)) [])
  "0x" ++ group 3 ++ "_" ++ group 2 ++ "_" ++ group 1 ++ "_" ++ group 0

end Sys2Proof.Machine
end

