-- ==== Sys2Proof/Safety.lean ====
section
/-! DEFINITION. What claims are stated with: outcomes read as the spec reads them, and the invariant of the
block (spec/10_state.md R22 to R33). -/

namespace Sys2Proof.Machine

/-- The state an outcome leaves (log 5); none where the command never reached the machine. -/
def leftBy : Host.Outcome State Fault Refusal → Option State
  | .next t => some t
  | .fault (.encSizeViolation t) => some t
  | .fault (.accessOutOfRange t) => some t
  | .fault (.noPbufElement t) => some t
  | .refused (.illegalCommand t) => some t
  | .refused _ => none

/-- A step that is not the end of a run (R224). -/
def completes : Host.Outcome State Fault Refusal → Bool
  | .next _ => true
  | .fault _ => false
  | .refused _ => false

/-- Everything the host has been answered when an outcome is reached (R224). -/
def answersOf (o : Host.Outcome State Fault Refusal) : Option (List Response) :=
  (leftBy o).map State.responses

/-! ### Commands and bytes by kind -/

/-- The commands of the encoder unit (R72). -/
def isEncCommand : Instr → Bool
  | .encAssemble _ _ _ _ => true
  | .encReadLen => true
  | .encReadByte _ => true
  | .decPushByte _ => false
  | .decClear => false
  | .decReadStatus => false
  | .decReadLen => false
  | .decReadSrc => false
  | .decReadDst => false
  | .decReadByte _ => false

/-- The seven read commands (R60). -/
def isReadCommand : Instr → Bool
  | .encAssemble _ _ _ _ => false
  | .encReadLen => true
  | .encReadByte _ => true
  | .decPushByte _ => false
  | .decClear => false
  | .decReadStatus => true
  | .decReadLen => true
  | .decReadSrc => true
  | .decReadDst => true
  | .decReadByte _ => true

/-- The states `SIZE_HIGH` to `CHECKSUM`, the `F` of R150. -/
def midFrame : DecState → Bool
  | .ready => false
  | .sizeHigh => true
  | .sizeLow => true
  | .srcAddrHigh => true
  | .srcAddrLow => true
  | .dstAddrHigh => true
  | .dstAddrLow => true
  | .data => true
  | .checksum => true
  | .done => false
  | .err => false

/-- The reserved bits of a word with a legal opcode, by R70 and R71: RSV, and what the format does not name. -/
def reservedMask (opc : BitVec 4) : CmdWord :=
  if opc = 0x1 then 0x0FFF000000000000
  else if opc = 0x4 then 0x0FFFFFFFFFFFFF00
  else if opc = 0x3 ∨ opc = 0xA then 0x0FFFFFFFFFFC0000
  else 0x0FFFFFFFFFFFFFFF

/-- The logical byte a wire byte of class OTHER stands for, the `v` of R150. -/
def logicalOf (esc : Bool) (b : Byte) : Byte := if esc then b ^^^ 0x20 else b

/-- `w(b)` of R80: the wire bytes of one logical byte. -/
def wireWidth (b : Byte) : Nat := if b = 0x7E ∨ b = 0x7D then 2 else 1

/-- Wire bytes unescaped in order from an escape flag: the flag after, and the logical bytes (R101, R102). -/
def unescapeAll : Bool → List Byte → Bool × List Byte
  | esc, [] => (esc, [])
  | esc, b :: bs =>
    match unescapeByte esc b with
    | (e, none) => unescapeAll e bs
    | (e, some v) => ((unescapeAll e bs).1, v :: (unescapeAll e bs).2)

/-- Two decoders the host cannot tell apart: every register agrees, and every readable element of PBUF (R211). -/
structure SameView (d e : DecUnit) : Prop where
  registers : { d with pbuf := [] } = { e with pbuf := [] }
  payload   : ∀ i, i < d.cnt.toNat → d.pbuf.read i = e.pbuf.read i

/-! ### The invariant -/

/-- A buffer in canonical form, inside its index space, that holds a value below `bound` (R22, R33, R53). -/
structure BufferInv (m : Memory) (depth bound : Nat) : Prop where
  sorted  : m.wf
  inside  : ∀ c ∈ m, c.1 < depth
  bounded : bound ≤ depth
  holds   : ∀ i, i < bound → (m.read i).isSome

/-- The encoder's invariant (R22, R23, R124): the buffer, and a frame that begins with the delimiter. -/
structure EncInv (p : Params) (e : EncUnit) : Prop where
  buffer : BufferInv e.obuf p.obufDepth e.olen.toNat
  starts : e.olen ≠ 0 → e.obuf.read 0 = some Config.flagByte

/-- What holds of the decoder's registers in each parser state (R26 to R32 and the reachability list of R150). -/
def DecPhase (p : Params) (d : DecUnit) : Prop :=
  match d.st with
  | .ready => d.status = .idle ∧ d.esc = false ∧ d.lenAcc = 0 ∧ d.srcAcc = 0 ∧ d.dstAcc = 0 ∧ d.cnt = 0
  | .sizeHigh => d.status = .inProgress ∧ d.lenAcc = 0 ∧ d.srcAcc = 0 ∧ d.dstAcc = 0 ∧ d.cnt = 0
  | .sizeLow => d.status = .inProgress ∧ loByte d.lenAcc = 0 ∧ d.srcAcc = 0 ∧ d.dstAcc = 0 ∧ d.cnt = 0
  | .srcAddrHigh => d.status = .inProgress ∧ p.addressEn = true ∧ d.lenAcc ≤ p.capacity ∧ d.srcAcc = 0
      ∧ d.dstAcc = 0 ∧ d.cnt = 0
  | .srcAddrLow => d.status = .inProgress ∧ p.addressEn = true ∧ d.lenAcc ≤ p.capacity
      ∧ loByte d.srcAcc = 0 ∧ d.dstAcc = 0 ∧ d.cnt = 0
  | .dstAddrHigh => d.status = .inProgress ∧ p.addressEn = true ∧ d.lenAcc ≤ p.capacity ∧ d.dstAcc = 0
      ∧ d.cnt = 0
  | .dstAddrLow => d.status = .inProgress ∧ p.addressEn = true ∧ d.lenAcc ≤ p.capacity
      ∧ loByte d.dstAcc = 0 ∧ d.cnt = 0
  | .data => d.status = .inProgress ∧ d.lenAcc ≤ p.capacity ∧ d.cnt < d.lenAcc
  | .checksum => d.status = .inProgress ∧ p.checksumEn = true ∧ d.lenAcc ≤ p.capacity ∧ d.cnt = d.lenAcc
  | .done => d.status = .finished ∧ d.esc = false ∧ d.lenAcc ≤ p.capacity ∧ d.cnt = d.lenAcc
  | .err => d.esc = false ∧
      ((d.status = .sizeErr ∧ p.capacity < d.lenAcc ∧ d.cnt = 0)
        ∨ (d.status = .checksumErr ∧ p.checksumEn = true ∧ d.lenAcc ≤ p.capacity ∧ d.cnt = d.lenAcc)
        ∨ (d.status = .specialCharErr ∧ d.cnt ≤ d.lenAcc))

/-- The received payload bytes `PBUF[0 .. n-1]`, an element without a value counting as nothing. -/
def bufferBytes (m : Memory) : Nat → List Byte
  | 0 => []
  | n + 1 => bufferBytes m n ++ (m.read n).toList

/-- The sum R31 says `csum_acc` holds: the length bytes, the address bytes, the payload bytes received. The
address accumulators are 0 when ADDRESS_EN = 0, so their bytes then add nothing (R30). -/
def receivedSum (d : DecUnit) : Byte :=
  sumBytes (fieldBytes d.lenAcc ++ fieldBytes d.srcAcc ++ fieldBytes d.dstAcc
    ++ bufferBytes d.pbuf d.cnt.toNat)

/-- The decoder's invariant (R25 to R33). -/
structure DecInv (p : Params) (d : DecUnit) : Prop where
  buffer    : BufferInv d.pbuf p.pbufDepth d.cnt.toNat
  phase     : DecPhase p d
  addresses : p.addressEn = false → d.srcAcc = 0 ∧ d.dstAcc = 0
  sum       : d.csumAcc = receivedSum d

/-- The block's invariant: both units'. -/
structure State.Inv (s : State) : Prop where
  enc : EncInv s.params s.enc
  dec : DecInv s.params s.dec

end Sys2Proof.Machine
end

