-- ==== Sys2Proof/Certificates/Slice0/Obligations.lean ====
section
/-! DEFINITION. The statements for the provers, each from numbered rules of spec/ or from the sections it
names. The lists that hold the port (log 2, log 3) and the state a fault carries (log 5) only say where the
spec's words, responses and after-states stand; no statement rests on a value the model chose. -/

open Sys2Proof Sys2Proof.Machine

/-! ### Encoding -/

/-- 30_encoding.md section 1: no operand bit of a command is lost on the port. -/
def Obligations.DecodeOfEncodeIsIdentity : Prop :=
  ∀ i : Instr, i.wellFormed = true → decode (encodeWord i) (encodeData i) = .ok i

/-- 30_encoding.md section 1: a word and data phase that decode are exactly the encoding of what they decode to. -/
def Obligations.EncodeOfDecodeIsIdentity : Prop :=
  ∀ (cw : CmdWord) (data : List Byte) (i : Instr), decode cw data = .ok i →
    i.wellFormed = true ∧ encodeWord i = cw ∧ encodeData i = data

/-- opcode_table.json: the decoder reads a word as a command of a row exactly when the word is of that row
and its data phase has the announced length. -/
def Obligations.DecoderFollowsOpcodeTable : Prop :=
  (∀ (cw : CmdWord) (data : List Byte) (i : Instr), decode cw data = .ok i →
      rowOf i ∈ opcodeTable ∧ cw &&& (rowOf i).mask = (rowOf i).pattern)
  ∧ ∀ (cw : CmdWord) (data : List Byte) (row : OpcodeRow), row ∈ opcodeTable →
      cw &&& row.mask = row.pattern → data.length = dataLength cw →
      ∃ i, decode cw data = .ok i ∧ rowOf i = row

/-- R73: an illegal word is refused with IllegalCommand, answers `rsp_ok` = 0 and `rsp_data` = 3, and changes
no state; every other word, with its data phase, spells a command. -/
def Obligations.IllegalWordsAreRefused : Prop :=
  (∀ (s : State) (cw : CmdWord) (data : List Byte) (rest : List HostMove),
      s.moves = .command cw data :: rest →
      (opcField cw = 0x0 ∨ 0xB#4 ≤ opcField cw ∨ cw &&& reservedMask (opcField cw) ≠ 0) →
      step s = .refused (.illegalCommand
        { s with moves := rest, responses := ⟨false, 3⟩ :: s.responses }))
  ∧ ∀ (cw : CmdWord) (data : List Byte),
      ¬ (opcField cw = 0x0 ∨ 0xB#4 ≤ opcField cw ∨ cw &&& reservedMask (opcField cw) ≠ 0) →
      data.length = dataLength cw → ∃ i, decode cw data = .ok i

/-- 95_test_vectors.md section 2.8, words written out from R70 to R73. -/
def Obligations.KnownWordsDecode : Prop :=
  decode 0x100000020042007E [0x11, 0x22] = .ok (.encAssemble 2 0x0042 0x007E [0x11, 0x22])
  ∧ decode 0x2000000000000000 [] = .ok .encReadLen
  ∧ decode 0x300000000003FFFF [] = .ok (.encReadByte 262143)
  ∧ decode 0x400000000000007E [] = .ok (.decPushByte 0x7E)
  ∧ decode 0x5000000000000000 [] = .ok .decClear
  ∧ decode 0xA00000000000000A [] = .ok (.decReadByte 10)
  ∧ decode 0x0000000000000000 [] = .error .reservedOpcode
  ∧ decode 0x1001000000000000 [] = .error .reservedBits

/-- 00_scope.md section 5 and 70_reset section 5, in the model's port (log 2, log 4, log 12): a step takes
the oldest move; a command that decodes is executed on the state with that move taken; `rst` resets both
units; with no move the state stays. -/
def Obligations.StepRunsTheDecodedCommand : Prop :=
  (∀ (s : State) (cw : CmdWord) (data : List Byte) (rest : List HostMove) (i : Instr),
      s.moves = .command cw data :: rest → decode cw data = .ok i →
      step s = exec i { s with moves := rest })
  ∧ (∀ (s : State) (rest : List HostMove), s.moves = .rst :: rest →
      step s = .next { s with enc := State.reset.enc, dec := State.reset.dec, moves := rest })
  ∧ ∀ s : State, s.moves = [] → step s = .next s

/-! ### Primitives -/

/-- R100, with its corner cases, its example, and the append at the write cursor. -/
def Obligations.EscapeFollowsItsRule : Prop :=
  (∀ b : Byte, escapeByte b = if b = 0x7E ∨ b = 0x7D then [0x7D, b ^^^ 0x20] else [b])
  ∧ escapeByte 0x7E = [0x7D, 0x5E] ∧ escapeByte 0x7D = [0x7D, 0x5D]
  ∧ escapeByte 0x5E = [0x5E] ∧ escapeByte 0x5D = [0x5D] ∧ escapeByte 0x20 = [0x20]
  ∧ escapeByte 0x00 = [0x00] ∧ escapeByte 0x7C = [0x7C] ∧ escapeByte 0x7F = [0x7F]
  ∧ escapeByte 0xFF = [0xFF]
  ∧ (∀ b : Byte, (escapeByte b).length = 1 ∨ (escapeByte b).length = 2)
  ∧ (escapeByte 0x7E).length = 2
  ∧ ∀ (m : Memory) (cursor : Nat) (b : Byte) (rest : List Byte),
      m.writeFrom cursor (escapeByte b ++ rest)
        = (m.writeFrom cursor (escapeByte b)).writeFrom (cursor + (escapeByte b).length) rest

/-- R102, with its corner cases, for the bytes that pass the global check. -/
def Obligations.UnescapeFollowsItsRule : Prop :=
  (∀ (esc : Bool) (b : Byte), b ≠ 0x7E → (b = 0x7D → esc = false) →
      unescapeByte esc b = if b = 0x7D then (true, none)
        else if esc = true then (false, some (b ^^^ 0x20)) else (false, some b))
  ∧ unescapeByte true 0x5E = (false, some 0x7E) ∧ unescapeByte true 0x5D = (false, some 0x7D)
  ∧ unescapeByte true 0x41 = (false, some 0x61) ∧ unescapeByte true 0x20 = (false, some 0x00)
  ∧ unescapeByte false 0x20 = (false, some 0x20) ∧ unescapeByte false 0x7D = (true, none)

/-- 40_primitives.md section 2: the sums modulo 2^16, and (a derivation of the spec's own) the value after a
high and then a low byte from 0, the value the accumulator has before its high byte (`StepKeepsTheInvariant`). -/
def Obligations.AccumulatorAddsLogicalBytes : Prop :=
  (∀ (acc : Half) (v : Byte),
      (accum16 acc v true).toNat = (acc.toNat + v.toNat * 256) % 65536
      ∧ (accum16 acc v false).toNat = (acc.toNat + v.toNat) % 65536)
  ∧ (∀ h l : Byte, accum16 (accum16 0 h true) l false = h ++ l
      ∧ (h ++ l : Half) = (h.setWidth 16 <<< 8) ||| l.setWidth 16
      ∧ h.toNat * 256 + l.toNat < 65536)
  ∧ accum16 (accum16 0 0x01 true) 0x2C false = 0x012C

/-- R104: the checksum as a number, whatever the order of the payload, and the rule's examples. -/
def Obligations.ChecksumIsComplementOfSum : Prop :=
  (∀ (p : Params) (len src dst : Half) (payload : List Byte),
      (checksumOf p len src dst payload).toNat =
        255 - (len.toNat / 256 + len.toNat % 256
          + (if p.addressEn = true then
              src.toNat / 256 + src.toNat % 256 + dst.toNat / 256 + dst.toNat % 256 else 0)
          + (payload.map BitVec.toNat).sum) % 256)
  ∧ (∀ (p : Params) (len src dst : Half) (payload payload' : List Byte), payload.Perm payload' →
      checksumOf p len src dst payload = checksumOf p len src dst payload')
  ∧ sumBytes [0xFF, 0x01] = 0
  ∧ ∀ (p : Params) (src dst : Half), p.addressEn = false →
      checksumOf p 0 src dst [] = 0xFF
      ∧ checksumOf p 5 src dst [0x7E, 0x7D, 0x20, 0x00, 0xFF] = 0xE0
      ∧ checksumOf p 1 src dst [0x80] = 0x7E
      ∧ checksumOf p 1 src dst [0x81] = 0x7D
      ∧ (p.checksumEn = true →
          (frameBytes p 1 src dst [0x80]).drop 4 = [0x7D, 0x5E]
          ∧ (frameBytes p 1 src dst [0x81]).drop 4 = [0x7D, 0x5D])

/-- 40_primitives.md sections 1 and 2 (a derivation of the spec's own): escaped text holds no delimiter and no
escape byte twice in a row, every escape byte in it has a successor, and unescaping it gives the text back. -/
def Obligations.UnescapeInvertsEscape : Prop :=
  ∀ bs : List Byte,
    (0x7E : Byte) ∉ bs.flatMap escapeByte
    ∧ (∀ i : Nat, (bs.flatMap escapeByte)[i]? = some 0x7D →
        ∃ c : Byte, (bs.flatMap escapeByte)[i + 1]? = some c ∧ c ≠ 0x7D)
    ∧ unescapeAll false (bs.flatMap escapeByte) = (false, bs)

/-- 40_primitives.md section 4 (a derivation of the spec's own): the logical bytes of a frame with checksum
add up to `0xFF`, and changing one byte of a list changes its sum. -/
def Obligations.FrameBytesSumToAllOnes : Prop :=
  (∀ (p : Params) (len src dst : Half) (payload : List Byte), p.checksumEn = true →
      sumBytes (logicalBytes p len src dst payload) = 0xFF)
  ∧ ∀ (bs : List Byte) (k : Nat) (v : Byte), k < bs.length → bs[k]? ≠ some v →
      sumBytes (bs.set k v) ≠ sumBytes bs

/-! ### The frame -/

/-- R54, R78, R79: the fields in order, 16-bit fields high byte first, everything after the delimiter escaped,
and the delimiter nowhere but first. -/
def Obligations.FrameHasItsFieldsInOrder : Prop :=
  ∀ (p : Params) (len src dst : Half) (payload : List Byte),
    frameBytes p len src dst payload =
      [0x7E]
      ++ (escapeByte (len.extractLsb' 8 8) ++ escapeByte (len.extractLsb' 0 8))
      ++ (if p.addressEn = true then
            escapeByte (src.extractLsb' 8 8) ++ escapeByte (src.extractLsb' 0 8)
            ++ (escapeByte (dst.extractLsb' 8 8) ++ escapeByte (dst.extractLsb' 0 8)) else [])
      ++ payload.flatMap escapeByte
      ++ (if p.checksumEn = true then escapeByte (checksumOf p len src dst payload) else [])
    ∧ (frameBytes p len src dst payload).head? = some 0x7E
    ∧ (0x7E : Byte) ∉ (frameBytes p len src dst payload).tail

/-- 00_scope.md section 4, 30_encoding.md section 2, 41_encoder.md (derivations of the spec's own): the
number of logical bytes, the wire length, its bounds, and that the bound is the buffer's depth. -/
def Obligations.WireLengthIsBounded : Prop :=
  ∀ (p : Params) (len src dst : Half) (payload : List Byte), payload.length = len.toNat →
    (logicalBytes p len src dst payload).length
        = 2 + 4 * p.addressEn.toNat + len.toNat + p.checksumEn.toNat
    ∧ (frameBytes p len src dst payload).length
        = 1 + ((logicalBytes p len src dst payload).map wireWidth).sum
    ∧ 3 ≤ (frameBytes p len src dst payload).length
    ∧ (len ≤ p.capacity → (frameBytes p len src dst payload).length ≤ p.obufDepth ∧ p.obufDepth < 2 ^ 18)

/-! ### Encoder commands -/

/-- R120: the checks in order, the frame in OBUF from index 0, `olen` and the response its length, every
element beyond it as before and unreadable, and the rule's corner cases and example. -/
def Obligations.AssembleWritesTheFrame : Prop :=
  (∀ (len src dst : Half) (payload : List Byte),
      encodeWord (.encAssemble len src dst payload)
        = 0x1000000000000000#64 ||| (len.setWidth 64 <<< 32) ||| (src.setWidth 64 <<< 16) ||| dst.setWidth 64)
  ∧ (∀ (s : State) (len src dst : Half) (payload : List Byte), payload.length = len.toNat →
      s.enc.encFault = true →
      exec (.encAssemble len src dst payload) s
        = .fault (.encSizeViolation { s with responses := ⟨false, 1⟩ :: s.responses }))
  ∧ (∀ (s : State) (len src dst : Half) (payload : List Byte), payload.length = len.toNat →
      s.enc.encFault = false → s.params.capacity < len →
      exec (.encAssemble len src dst payload) s
        = .fault (.encSizeViolation
            { s with enc := { s.enc with encFault := true }, responses := ⟨false, 1⟩ :: s.responses }))
  ∧ (∀ (s : State) (len src dst : Half) (payload : List Byte), payload.length = len.toNat →
      s.enc.encFault = false → len ≤ s.params.capacity →
      let out := [0x7E]
        ++ escapeByte (len.extractLsb' 8 8) ++ escapeByte (len.extractLsb' 0 8)
        ++ (if s.params.addressEn = true then
              escapeByte (src.extractLsb' 8 8) ++ escapeByte (src.extractLsb' 0 8)
              ++ escapeByte (dst.extractLsb' 8 8) ++ escapeByte (dst.extractLsb' 0 8) else [])
        ++ payload.flatMap escapeByte
        ++ (if s.params.checksumEn = true then
              escapeByte (checksumOf s.params len src dst payload) else [])
      let t := { s with
        enc := { s.enc with obuf := s.enc.obuf.writeFrom 0 out, olen := BitVec.ofNat 18 out.length }
        responses := ⟨true, BitVec.ofNat 32 out.length⟩ :: s.responses }
      exec (.encAssemble len src dst payload) s = .next t
      ∧ (∀ idx : Index, out.length ≤ idx.toNat →
          exec (.encReadByte idx) t
            = .fault (.accessOutOfRange { t with responses := ⟨false, 2⟩ :: t.responses }))
      ∧ (BitVec.ofNat 18 out.length).toNat = out.length
      ∧ out.length ≤ s.params.obufDepth
      ∧ (∀ i, i < out.length → (s.enc.obuf.writeFrom 0 out).read i = out[i]?)
      ∧ ∀ i, out.length ≤ i → (s.enc.obuf.writeFrom 0 out).read i = s.enc.obuf.read i)
  ∧ (∀ (p : Params) (len src dst src' dst' : Half) (payload : List Byte), p.addressEn = false →
      frameBytes p len src dst payload = frameBytes p len src' dst' payload)
  ∧ (∀ (p : Params) (src dst : Half), p.addressEn = false → p.checksumEn = false →
      frameBytes p 0 src dst [] = [0x7E, 0x00, 0x00]
      ∧ ∀ payload : List Byte, (frameBytes p 126 src dst payload).take 4 = [0x7E, 0x00, 0x7D, 0x5E])
  ∧ ∀ (p : Params) (src dst : Half), p.addressEn = false → p.checksumEn = true →
      frameBytes p 1 src dst [0x80] = [0x7E, 0x00, 0x01, 0x80, 0x7D, 0x5E]

/-- R51: the frame fills OBUF from 0 to `olen - 1`, what lies above stays, and no other command, nor any
fault, writes OBUF. -/
def Obligations.OnlyAssembleWritesObuf : Prop :=
  (∀ (s t : State) (len src dst : Half) (payload : List Byte),
      exec (.encAssemble len src dst payload) s = .next t →
      (∀ i, i < t.enc.olen.toNat →
        t.enc.obuf.read i = (frameBytes s.params len src dst payload)[i]?
        ∧ (t.enc.obuf.read i).isSome = true)
      ∧ ∀ i, t.enc.olen.toNat ≤ i → t.enc.obuf.read i = s.enc.obuf.read i)
  ∧ ∀ (i : Instr) (s t : State), leftBy (exec i s) = some t →
      t.enc.obuf ≠ s.enc.obuf →
      (∃ len src dst payload, i = .encAssemble len src dst payload) ∧ completes (exec i s) = true

/-- 41_encoder.md, ENC_ASSEMBLE's effect (a derivation of the spec's own, the rule after the length formula):
two encoders of one configuration, whatever they held, read the same after the same command. -/
def Obligations.AssembleForgetsEarlierFrames : Prop :=
  ∀ (s s' t t' : State) (len src dst : Half) (payload : List Byte), s.params = s'.params →
    exec (.encAssemble len src dst payload) s = .next t →
    exec (.encAssemble len src dst payload) s' = .next t' →
    t.enc.olen = t'.enc.olen
    ∧ ∀ i, i < t.enc.olen.toNat → t.enc.obuf.read i = t'.enc.obuf.read i

/-- The frame of ENC_ASSEMBLE (10_state.md sections 1 to 3): when it completes, the parameters, the decoder,
the pending moves and `enc_fault` are unchanged, one response is given, and every element of OBUF outside
the frame written reads as before. -/
def Obligations.AssembleChangesNothingElse : Prop :=
  ∀ (s t : State) (len src dst : Half) (payload : List Byte),
    exec (.encAssemble len src dst payload) s = .next t →
    t.params = s.params ∧ t.dec = s.dec ∧ t.moves = s.moves ∧ t.enc.encFault = s.enc.encFault
    ∧ t.responses.tail = s.responses
    ∧ ∀ a, (frameBytes s.params len src dst payload).length ≤ a →
        t.enc.obuf.read a = s.enc.obuf.read a

/-- R24, R185: what raises EncSizeViolation and what it leaves, that it is sticky for all three encoder
commands, and that only reset clears the flag. -/
def Obligations.SizeViolationIsSticky : Prop :=
  (∀ (s : State) (len src dst : Half) (payload : List Byte), payload.length = len.toNat →
      s.enc.encFault = true ∨ s.params.capacity < len →
      exec (.encAssemble len src dst payload) s
        = .fault (.encSizeViolation
            { s with enc := { s.enc with encFault := true }, responses := ⟨false, 1⟩ :: s.responses }))
  ∧ (∀ (s : State) (idx : Index), s.enc.encFault = true →
      exec .encReadLen s
        = .fault (.encSizeViolation { s with responses := ⟨false, 1⟩ :: s.responses })
      ∧ exec (.encReadByte idx) s
        = .fault (.encSizeViolation { s with responses := ⟨false, 1⟩ :: s.responses }))
  ∧ (∀ (s t : State), leftBy (step s) = some t → s.enc.encFault = true → t.enc.encFault = false →
      s.moves.head? = some .rst)
  ∧ ∀ (i : Instr) (s t : State), leftBy (exec i s) = some t →
      s.enc.encFault = false → t.enc.encFault = true →
      ∃ len src dst payload, i = .encAssemble len src dst payload ∧ s.params.capacity < len
        ∧ exec i s = .fault (.encSizeViolation t)

/-- R123, with its corner cases and example. -/
def Obligations.ReadLenAnswersOlen : Prop :=
  encodeWord .encReadLen = 0x2000000000000000
  ∧ (∀ s : State, s.enc.encFault = false →
      exec .encReadLen s
        = .next { s with responses := ⟨true, s.enc.olen.setWidth 32⟩ :: s.responses })
  ∧ (∀ s : State, s.enc.encFault = true →
      exec .encReadLen s
        = .fault (.encSizeViolation { s with responses := ⟨false, 1⟩ :: s.responses }))
  ∧ exec .encReadLen State.reset = .next { State.reset with responses := [⟨true, 0⟩] }
  ∧ ∀ (s : State) (src dst : Half), s.enc.encFault = false → 1 ≤ s.params.capacity →
      s.params.checksumEn = true → s.params.addressEn = false →
      ∃ t, exec (.encAssemble 1 src dst [0x80]) s = .next t
        ∧ exec .encReadLen t = .next { t with responses := ⟨true, 6⟩ :: t.responses }

/-- R124, with its corner cases and example. -/
def Obligations.ReadByteAnswersObuf : Prop :=
  (∀ idx : Index, encodeWord (.encReadByte idx) = 0x3000000000000000#64 ||| idx.setWidth 64)
  ∧ (∀ (s : State) (idx : Index), s.enc.encFault = true →
      exec (.encReadByte idx) s
        = .fault (.encSizeViolation { s with responses := ⟨false, 1⟩ :: s.responses }))
  ∧ (∀ (s : State) (idx : Index), s.enc.encFault = false → s.enc.olen ≤ idx →
      exec (.encReadByte idx) s
        = .fault (.accessOutOfRange { s with responses := ⟨false, 2⟩ :: s.responses }))
  ∧ (∀ (s : State) (idx : Index), s.Inv → s.enc.encFault = false → idx < s.enc.olen →
      ∃ v, s.enc.obuf.read idx.toNat = some v
        ∧ exec (.encReadByte idx) s
            = .next { s with responses := ⟨true, v.setWidth 32⟩ :: s.responses })
  ∧ (∀ s : State, s.Inv → s.enc.encFault = false → 0 < s.enc.olen →
      exec (.encReadByte 0) s = .next { s with responses := ⟨true, 0x7E⟩ :: s.responses })
  ∧ (∀ (s t : State) (len src dst : Half) (payload : List Byte),
      exec (.encAssemble len src dst payload) s = .next t →
      ∃ v, (frameBytes s.params len src dst payload).getLast? = some v
        ∧ exec (.encReadByte (t.enc.olen - 1)) t
            = .next { t with responses := ⟨true, v.setWidth 32⟩ :: t.responses })
  ∧ (∀ idx : Index, exec (.encReadByte idx) State.reset
      = .fault (.accessOutOfRange { State.reset with responses := [⟨false, 2⟩] }))
  ∧ ∀ (s : State) (src dst : Half), s.enc.encFault = false → 1 ≤ s.params.capacity →
      s.params.checksumEn = true → s.params.addressEn = false →
      ∃ t, exec (.encAssemble 1 src dst [0x80]) s = .next t
        ∧ exec (.encReadByte 4) t = .next { t with responses := ⟨true, 0x7D⟩ :: t.responses }
        ∧ exec (.encReadByte 6) t
            = .fault (.accessOutOfRange { t with responses := ⟨false, 2⟩ :: t.responses })

/-! ### DEC_PUSH_BYTE -/

/-- R141: DONE and ERR absorb every byte, and of the commands only DEC_CLEAR leaves them. -/
def Obligations.DoneAndErrAbsorbBytes : Prop :=
  (∀ (s : State) (b : Byte), s.dec.st = .done ∨ s.dec.st = .err →
      exec (.decPushByte b) s
        = .next { s with responses := ⟨true, s.dec.status.code.setWidth 32⟩ :: s.responses })
  ∧ (∀ s t : State, s.dec.st = .done ∨ s.dec.st = .err → leftBy (step s) = some t →
      t.dec.st ≠ s.dec.st →
      ∃ rest, s.moves = .rst :: rest
        ∨ ∃ cw data, s.moves = .command cw data :: rest ∧ decode cw data = .ok .decClear)

/-- R142: the special-character error of the states SIZE_HIGH to CHECKSUM. -/
def Obligations.SpecialCharacterEntersErr : Prop :=
  ∀ (s : State) (b : Byte), midFrame s.dec.st = true →
    b = 0x7E ∨ (b = 0x7D ∧ s.dec.esc = true) →
    exec (.decPushByte b) s
      = .next { s with
          dec := { s.dec with st := .err, status := .specialCharErr, esc := false }
          responses := ⟨true, 5⟩ :: s.responses }

/-- R143: READY waits for the delimiter; on the entry to SIZE_HIGH the accumulators are 0, and READY itself is
entered by DEC_CLEAR or reset only. -/
def Obligations.ReadyWaitsForDelimiter : Prop :=
  (∀ (s : State), s.Inv → s.dec.st = .ready →
    (exec (.decPushByte 0x7E) s
      = .next { s with
          dec := { s.dec with st := .sizeHigh, status := .inProgress }
          responses := ⟨true, 1⟩ :: s.responses })
    ∧ (∀ b : Byte, b ≠ 0x7E →
        exec (.decPushByte b) s = .next { s with responses := ⟨true, 0⟩ :: s.responses })
    ∧ s.dec.esc = false ∧ s.dec.status = .idle
    ∧ s.dec.lenAcc = 0 ∧ s.dec.srcAcc = 0 ∧ s.dec.dstAcc = 0 ∧ s.dec.csumAcc = 0 ∧ s.dec.cnt = 0)
  ∧ ∀ s t : State, leftBy (step s) = some t → s.dec.st ≠ .ready → t.dec.st = .ready →
      ∃ rest, s.moves = .rst :: rest
        ∨ ∃ cw data, s.moves = .command cw data :: rest ∧ decode cw data = .ok .decClear

/-- 42_decoder.md section 1, row 7 of the transition table: an escape byte is consumed and the state does
not advance. -/
def Obligations.EscapeByteIsConsumed : Prop :=
  ∀ s : State, midFrame s.dec.st = true → s.dec.esc = false →
    exec (.decPushByte 0x7D) s
      = .next { s with dec := { s.dec with esc := true }, responses := ⟨true, 1⟩ :: s.responses }

/-- R144: in the six field states an escape byte only sets `esc`; any other byte accumulates and advances.
The whole states after SIZE_LOW and DST_ADDR_LOW are in `LengthAboveCapacityIsSizeErr` and
`PayloadIsEnteredByLength`. -/
def Obligations.FieldStatesAccumulate : Prop :=
  (∀ s : State, s.dec.esc = false →
      s.dec.st ∈ [DecState.sizeHigh, .sizeLow, .srcAddrHigh, .srcAddrLow, .dstAddrHigh, .dstAddrLow] →
      exec (.decPushByte 0x7D) s
        = .next { s with dec := { s.dec with esc := true }, responses := ⟨true, 1⟩ :: s.responses })
  ∧ ∀ (s : State) (b : Byte), b ≠ 0x7E → b ≠ 0x7D →
      let d := s.dec
      let v := logicalOf d.esc b
      let sum := d.csumAcc + v
      let answer : Response := ⟨true, d.status.code.setWidth 32⟩
      (d.st = .sizeHigh → exec (.decPushByte b) s
        = .next { s with
            dec := { d with esc := false, csumAcc := sum, st := .sizeLow,
                            lenAcc := d.lenAcc + (v.setWidth 16 <<< 8) }
            responses := answer :: s.responses })
      ∧ (d.st = .sizeLow → ∃ t, exec (.decPushByte b) s = .next t
          ∧ t.dec.lenAcc = d.lenAcc + v.setWidth 16 ∧ t.dec.esc = false ∧ t.dec.csumAcc = sum
          ∧ t.dec.st = if s.params.capacity < t.dec.lenAcc then .err
              else if s.params.addressEn = true then .srcAddrHigh
              else if t.dec.lenAcc ≠ 0 then .data
              else if s.params.checksumEn = true then .checksum else .done)
      ∧ (d.st = .srcAddrHigh → exec (.decPushByte b) s
        = .next { s with
            dec := { d with esc := false, csumAcc := sum, st := .srcAddrLow,
                            srcAcc := d.srcAcc + (v.setWidth 16 <<< 8) }
            responses := answer :: s.responses })
      ∧ (d.st = .srcAddrLow → exec (.decPushByte b) s
        = .next { s with
            dec := { d with esc := false, csumAcc := sum, st := .dstAddrHigh,
                            srcAcc := d.srcAcc + v.setWidth 16 }
            responses := answer :: s.responses })
      ∧ (d.st = .dstAddrHigh → exec (.decPushByte b) s
        = .next { s with
            dec := { d with esc := false, csumAcc := sum, st := .dstAddrLow,
                            dstAcc := d.dstAcc + (v.setWidth 16 <<< 8) }
            responses := answer :: s.responses })
      ∧ (d.st = .dstAddrLow → ∃ t, exec (.decPushByte b) s = .next t
          ∧ t.dec.dstAcc = d.dstAcc + v.setWidth 16 ∧ t.dec.esc = false ∧ t.dec.csumAcc = sum
          ∧ t.dec.st = if d.lenAcc ≠ 0 then .data
              else if s.params.checksumEn = true then .checksum else .done)

/-- R145: the byte that completes the length compares it with CAPACITY. -/
def Obligations.LengthAboveCapacityIsSizeErr : Prop :=
  ∀ (s : State) (b : Byte), s.dec.st = .sizeLow → b ≠ 0x7E → b ≠ 0x7D →
    let v := logicalOf s.dec.esc b
    let len := s.dec.lenAcc + v.setWidth 16
    (s.params.capacity < len →
      exec (.decPushByte b) s
        = .next { s with
            dec := { s.dec with esc := false, csumAcc := s.dec.csumAcc + v, lenAcc := len,
                                st := .err, status := .sizeErr }
            responses := ⟨true, 3⟩ :: s.responses })
    ∧ (len ≤ s.params.capacity → ∃ t, exec (.decPushByte b) s = .next t
        ∧ t.dec.st ≠ .err ∧ t.dec.lenAcc = len ∧ t.dec.cnt = s.dec.cnt ∧ t.dec.pbuf = s.dec.pbuf)

/-- R146: where the payload is entered, and that a declared length of 0 leaves DATA out. -/
def Obligations.PayloadIsEnteredByLength : Prop :=
  (∀ (s : State) (b : Byte), s.dec.st = .sizeLow → s.params.addressEn = false → b ≠ 0x7E → b ≠ 0x7D →
      let v := logicalOf s.dec.esc b
      let len := s.dec.lenAcc + v.setWidth 16
      let d := { s.dec with esc := false, csumAcc := s.dec.csumAcc + v, lenAcc := len }
      len ≤ s.params.capacity →
      exec (.decPushByte b) s
        = if len ≠ 0 then .next { s with
            dec := { d with st := .data }
            responses := ⟨true, d.status.code.setWidth 32⟩ :: s.responses }
          else if s.params.checksumEn = true then .next { s with
            dec := { d with st := .checksum }
            responses := ⟨true, d.status.code.setWidth 32⟩ :: s.responses }
          else .next { s with
            dec := { d with st := .done, status := .finished }
            responses := ⟨true, 2⟩ :: s.responses })
  ∧ (∀ (s : State) (b : Byte), s.dec.st = .dstAddrLow → b ≠ 0x7E → b ≠ 0x7D →
      let v := logicalOf s.dec.esc b
      let d := { s.dec with esc := false, csumAcc := s.dec.csumAcc + v,
                            dstAcc := s.dec.dstAcc + v.setWidth 16 }
      exec (.decPushByte b) s
        = if s.dec.lenAcc ≠ 0 then .next { s with
            dec := { d with st := .data }
            responses := ⟨true, d.status.code.setWidth 32⟩ :: s.responses }
          else if s.params.checksumEn = true then .next { s with
            dec := { d with st := .checksum }
            responses := ⟨true, d.status.code.setWidth 32⟩ :: s.responses }
          else .next { s with
            dec := { d with st := .done, status := .finished }
            responses := ⟨true, 2⟩ :: s.responses })
  ∧ ∀ (s : State) (b : Byte), s.dec.st = .sizeLow → s.params.addressEn = true → b ≠ 0x7E → b ≠ 0x7D →
      let v := logicalOf s.dec.esc b
      let len := s.dec.lenAcc + v.setWidth 16
      len ≤ s.params.capacity →
      exec (.decPushByte b) s
        = .next { s with
            dec := { s.dec with esc := false, csumAcc := s.dec.csumAcc + v, lenAcc := len,
                                st := .srcAddrHigh }
            responses := ⟨true, s.dec.status.code.setWidth 32⟩ :: s.responses }

/-- R52, R147: a payload byte lands at `PBUF[cnt]`, `cnt` counts it, and the byte that completes the payload
leaves DATA; PBUF is written in no other state and by no other command. The premise `cnt < CAPACITY` is part
of the invariant in DATA (`StepKeepsTheInvariant`). -/
def Obligations.DataBytesLandAtCnt : Prop :=
  (∀ s : State, s.dec.st = .data → s.dec.esc = false →
      exec (.decPushByte 0x7D) s
        = .next { s with dec := { s.dec with esc := true }, responses := ⟨true, 1⟩ :: s.responses })
  ∧ (∀ (s : State) (b : Byte), s.dec.st = .data → s.dec.cnt < s.params.capacity → b ≠ 0x7E → b ≠ 0x7D →
      let v := logicalOf s.dec.esc b
      let d := { s.dec with esc := false, csumAcc := s.dec.csumAcc + v, cnt := s.dec.cnt + 1,
                            pbuf := s.dec.pbuf.write s.dec.cnt.toNat v }
      d.pbuf.read s.dec.cnt.toNat = some v
      ∧ (∀ i, i ≠ s.dec.cnt.toNat → d.pbuf.read i = s.dec.pbuf.read i)
      ∧ exec (.decPushByte b) s
        = if s.dec.cnt.toNat + 1 ≠ s.dec.lenAcc.toNat then .next { s with
            dec := d
            responses := ⟨true, d.status.code.setWidth 32⟩ :: s.responses }
          else if s.params.checksumEn = true then .next { s with
            dec := { d with st := .checksum }
            responses := ⟨true, d.status.code.setWidth 32⟩ :: s.responses }
          else .next { s with
            dec := { d with st := .done, status := .finished }
            responses := ⟨true, 2⟩ :: s.responses })
  ∧ ∀ (i : Instr) (s t : State), leftBy (exec i s) = some t → t.dec.pbuf ≠ s.dec.pbuf →
      s.dec.st = .data ∧ ∃ b, i = .decPushByte b

/-- R148: the received checksum byte against `0xFF - csum_acc`, which in every state of the invariant is the
checksum of what was received. -/
def Obligations.ChecksumByteDecidesTheFrame : Prop :=
  (∀ s : State, s.dec.st = .checksum → s.dec.esc = false →
      exec (.decPushByte 0x7D) s
        = .next { s with dec := { s.dec with esc := true }, responses := ⟨true, 1⟩ :: s.responses })
  ∧ (∀ (s : State) (b : Byte), s.dec.st = .checksum → b ≠ 0x7E → b ≠ 0x7D →
      exec (.decPushByte b) s
        = if logicalOf s.dec.esc b = 0xFF - s.dec.csumAcc then .next { s with
            dec := { s.dec with esc := false, st := .done, status := .finished }
            responses := ⟨true, 2⟩ :: s.responses }
          else .next { s with
            dec := { s.dec with esc := false, st := .err, status := .checksumErr }
            responses := ⟨true, 4⟩ :: s.responses })
  ∧ ∀ s : State, s.Inv → s.dec.st = .checksum →
      0xFF - s.dec.csumAcc = checksumOf s.params s.dec.lenAcc s.dec.srcAcc s.dec.dstAcc
        (bufferBytes s.dec.pbuf s.dec.lenAcc.toNat)
      ∧ (bufferBytes s.dec.pbuf s.dec.lenAcc.toNat).length = s.dec.lenAcc.toNat

/-- 42_decoder.md section 1 (DEC_PUSH_BYTE raises no fault): it completes in every state of the invariant,
and it then answers the status the decoder holds. -/
def Obligations.PushByteAlwaysCompletes : Prop :=
  ∀ (s : State) (b : Byte), s.Inv → ∃ t : State, exec (.decPushByte b) s = .next t
    ∧ t.responses = ⟨true, t.dec.status.code.setWidth 32⟩ :: s.responses

/-- The frame of DEC_PUSH_BYTE (10_state.md section 3, the table's column 'written by'): the encoder, the
parameters and the pending moves are unchanged, each accumulator changes in its own field states only, and
every element of PBUF but the one at `cnt` in DATA reads as before. -/
def Obligations.PushByteChangesNothingElse : Prop :=
  ∀ (s t : State) (b : Byte), exec (.decPushByte b) s = .next t →
    t.params = s.params ∧ t.enc = s.enc ∧ t.moves = s.moves ∧ t.responses.tail = s.responses
    ∧ (s.dec.st ≠ .sizeHigh → s.dec.st ≠ .sizeLow → t.dec.lenAcc = s.dec.lenAcc)
    ∧ (s.dec.st ≠ .srcAddrHigh → s.dec.st ≠ .srcAddrLow → t.dec.srcAcc = s.dec.srcAcc)
    ∧ (s.dec.st ≠ .dstAddrHigh → s.dec.st ≠ .dstAddrLow → t.dec.dstAcc = s.dec.dstAcc)
    ∧ (s.dec.st ≠ .data → t.dec.cnt = s.dec.cnt)
    ∧ (midFrame s.dec.st = false ∨ s.dec.st = .checksum → t.dec.csumAcc = s.dec.csumAcc)
    ∧ ∀ i, (s.dec.st ≠ .data ∨ i ≠ s.dec.cnt.toNat) → t.dec.pbuf.read i = s.dec.pbuf.read i

/-! ### DEC_CLEAR and the accessors -/

/-- R151: DEC_CLEAR in every state, what it leaves, and what the host can then observe. -/
def Obligations.ClearRestoresInitialValues : Prop :=
  encodeWord .decClear = 0x5000000000000000
  ∧ ∀ s : State, ∃ t : State, exec .decClear s = .next t
      ∧ t = { s with
          dec := { st := .ready, esc := false, lenAcc := 0, cnt := 0, srcAcc := 0, dstAcc := 0,
                   csumAcc := 0, status := .idle, pbuf := s.dec.pbuf }
          responses := ⟨true, 0⟩ :: s.responses }
      ∧ exec .decClear t = .next { t with responses := ⟨true, 0⟩ :: t.responses }
      ∧ exec .decReadStatus t = .next { t with responses := ⟨true, 0⟩ :: t.responses }
      ∧ exec .decReadLen t = .next { t with responses := ⟨true, 0⟩ :: t.responses }
      ∧ exec .decReadSrc t = .next { t with responses := ⟨true, 0⟩ :: t.responses }
      ∧ exec .decReadDst t = .next { t with responses := ⟨true, 0⟩ :: t.responses }
      ∧ ∀ idx : Index, exec (.decReadByte idx) t
          = .fault (.accessOutOfRange { t with responses := ⟨false, 2⟩ :: t.responses })

/-- 42_decoder.md section 3: the four register accessors complete in every state and change nothing else;
the two address accessors answer 0 when ADDRESS_EN = 0, and in READY all four answer 0. -/
def Obligations.AccessorsAnswerTheRegisters : Prop :=
  (∀ s : State,
      exec .decReadStatus s
        = .next { s with responses := ⟨true, s.dec.status.code.setWidth 32⟩ :: s.responses }
      ∧ exec .decReadLen s
        = .next { s with responses := ⟨true, s.dec.lenAcc.setWidth 32⟩ :: s.responses }
      ∧ exec .decReadSrc s
        = .next { s with responses := ⟨true, s.dec.srcAcc.setWidth 32⟩ :: s.responses }
      ∧ exec .decReadDst s
        = .next { s with responses := ⟨true, s.dec.dstAcc.setWidth 32⟩ :: s.responses })
  ∧ (∀ s : State, s.Inv → s.params.addressEn = false →
      exec .decReadSrc s = .next { s with responses := ⟨true, 0⟩ :: s.responses }
      ∧ exec .decReadDst s = .next { s with responses := ⟨true, 0⟩ :: s.responses })
  ∧ ∀ s : State, s.Inv → s.dec.st = .ready →
      exec .decReadStatus s = .next { s with responses := ⟨true, 0⟩ :: s.responses }
      ∧ exec .decReadLen s = .next { s with responses := ⟨true, 0⟩ :: s.responses }

/-- 42_decoder.md section 3: DEC_READ_BYTE completes for every received byte, in every state of the invariant,
and faults at and above `cnt`; a zero-length finished frame and READY have no readable byte. -/
def Obligations.ReadByteAnswersPbuf : Prop :=
  (∀ (s : State) (idx : Index), s.Inv → idx.toNat < s.dec.cnt.toNat →
      ∃ v, s.dec.pbuf.read idx.toNat = some v
        ∧ exec (.decReadByte idx) s
            = .next { s with responses := ⟨true, v.setWidth 32⟩ :: s.responses })
  ∧ (∀ (s : State) (idx : Index), s.dec.cnt.toNat ≤ idx.toNat →
      exec (.decReadByte idx) s
        = .fault (.accessOutOfRange { s with responses := ⟨false, 2⟩ :: s.responses }))
  ∧ ∀ (s : State) (idx : Index), s.Inv →
      s.dec.st = .ready ∨ (s.dec.st = .done ∧ s.dec.lenAcc = 0) →
      exec (.decReadByte idx) s
        = .fault (.accessOutOfRange { s with responses := ⟨false, 2⟩ :: s.responses })

/-- R60: a read changes nothing but what has been answered, whatever its outcome, and repeated at once it
has the same outcome with the same answer. -/
def Obligations.ReadsHaveNoSideEffects : Prop :=
  ∀ (i : Instr) (s t : State), isReadCommand i = true → leftBy (exec i s) = some t →
    t = { s with responses := t.responses }
    ∧ ∃ r : Response, t.responses = r :: s.responses
      ∧ leftBy (exec i t) = some { t with responses := r :: t.responses }
      ∧ completes (exec i t) = completes (exec i s)

/-- R186: what causes AccessOutOfRange, what it answers, and that no state changes. In the states of the
invariant nothing else causes it. -/
def Obligations.OutOfRangeReadsFault : Prop :=
  (∀ (s : State) (idx : Index), s.enc.encFault = false → s.enc.olen ≤ idx →
      exec (.encReadByte idx) s
        = .fault (.accessOutOfRange { s with responses := ⟨false, 2⟩ :: s.responses }))
  ∧ (∀ (s : State) (idx : Index), s.dec.cnt.toNat ≤ idx.toNat →
      exec (.decReadByte idx) s
        = .fault (.accessOutOfRange { s with responses := ⟨false, 2⟩ :: s.responses }))
  ∧ ∀ (i : Instr) (s t : State), s.Inv → exec i s = .fault (.accessOutOfRange t) →
      (∃ idx, i = .encReadByte idx ∧ s.enc.olen ≤ idx)
      ∨ (∃ idx, i = .decReadByte idx ∧ s.dec.cnt.toNat ≤ idx.toNat)

/-! ### Whole-machine rules -/

/-- R210: `rst` in every state gives every element its reset value and leaves the parameters, and the
machine's initial state holds those values. -/
def Obligations.ResetGivesResetValues : Prop :=
  (∀ (s : State) (rest : List HostMove), s.moves = .rst :: rest →
      ∃ t, step s = .next t ∧ t.params = s.params
        ∧ t.enc.olen = 0 ∧ t.enc.encFault = false ∧ (∀ i, t.enc.obuf.read i = none)
        ∧ t.dec.st = .ready ∧ t.dec.esc = false ∧ t.dec.lenAcc = 0 ∧ t.dec.cnt = 0
        ∧ t.dec.srcAcc = 0 ∧ t.dec.dstAcc = 0 ∧ t.dec.csumAcc = 0 ∧ t.dec.status = .idle
        ∧ ∀ i, t.dec.pbuf.read i = none)
  ∧ State.reset.enc.olen = 0 ∧ State.reset.enc.encFault = false
  ∧ (∀ i, State.reset.enc.obuf.read i = none)
  ∧ State.reset.dec.st = .ready ∧ State.reset.dec.esc = false ∧ State.reset.dec.lenAcc = 0
  ∧ State.reset.dec.cnt = 0 ∧ State.reset.dec.srcAcc = 0 ∧ State.reset.dec.dstAcc = 0
  ∧ State.reset.dec.csumAcc = 0 ∧ State.reset.dec.status = .idle
  ∧ ∀ i, State.reset.dec.pbuf.read i = none

/-- 10_state.md sections 2 and 3: the invariant holds after reset. -/
def Obligations.ResetMeetsTheInvariant : Prop :=
  State.reset.Inv

/-- 10_state.md sections 2 and 3: every step keeps the invariant, whether it completes or faults. The
invariant: canonical buffers inside their depth, every readable element holding a value, `st` and `status`
related as R32's table says, `esc` clear outside frames, `cnt` within the declared length, that length within
CAPACITY, addresses 0 when disabled, and `csum_acc` the sum of what was received. -/
def Obligations.StepKeepsTheInvariant : Prop :=
  ∀ s t : State, s.Inv → leftBy (step s) = some t → t.Inv

/-- 10_state.md section 3: an invariant consequence the host can see: while no error is recorded, `cnt` and
the declared length stay within CAPACITY, and ADDRESS_EN and CHECKSUM_EN decide which states occur. -/
def Obligations.StatesFollowTheParameters : Prop :=
  ∀ s : State, s.Inv →
    s.dec.cnt ≤ s.dec.lenAcc ∧ s.dec.cnt ≤ s.params.capacity
    ∧ (s.dec.st = .ready ↔ s.dec.status = .idle)
    ∧ (s.dec.st = .done ↔ s.dec.status = .finished)
    ∧ (midFrame s.dec.st = true ↔ s.dec.status = .inProgress)
    ∧ (s.dec.st ∈ [DecState.srcAddrHigh, .srcAddrLow, .dstAddrHigh, .dstAddrLow] →
        s.params.addressEn = true)
    ∧ (s.dec.st = .checksum → s.params.checksumEn = true)
    ∧ (s.dec.esc = true → midFrame s.dec.st = true)
    ∧ s.enc.olen.toNat ≤ s.params.obufDepth

/-- R20: no step writes the parameters: no command, neither DEC_CLEAR nor reset. -/
def Obligations.ParametersNeverChange : Prop :=
  (∀ s t : State, leftBy (step s) = some t → t.params = s.params)
  ∧ ∀ (i : Instr) (s t : State), leftBy (exec i s) = some t → t.params = s.params

/-- 60_exceptions.md section 2 and 20_memory.md section 5 (a derivation of the spec's own): a command to one
unit leaves the other unit as it is, whatever its outcome, and its own unit's result does not depend on the
other. -/
def Obligations.UnitsDoNotInterfere : Prop :=
  (∀ (i : Instr) (s t : State), isEncCommand i = true → leftBy (exec i s) = some t → t.dec = s.dec)
  ∧ (∀ (i : Instr) (s t : State), isEncCommand i = false → leftBy (exec i s) = some t → t.enc = s.enc)
  ∧ (∀ (i : Instr) (s t : State) (d : DecUnit), isEncCommand i = true → leftBy (exec i s) = some t →
      leftBy (exec i { s with dec := d }) = some { t with dec := d }
      ∧ completes (exec i { s with dec := d }) = completes (exec i s))
  ∧ ∀ (i : Instr) (s t : State) (e : EncUnit), isEncCommand i = false → leftBy (exec i s) = some t →
      leftBy (exec i { s with enc := e }) = some { t with enc := e }
      ∧ completes (exec i { s with enc := e }) = completes (exec i s)

/-- 20_memory.md section 5 (a derivation of the spec's own): an encoder and a decoder command issued in
either order leave the same units and give the same two answers. -/
def Obligations.CommandsOfTheTwoUnitsCommute : Prop :=
  ∀ (i j : Instr) (s t u : State), isEncCommand i = true → isEncCommand j = false →
    exec i s = .next t → exec j t = .next u →
    ∃ t' u' : State, exec j s = .next t' ∧ exec i t' = .next u'
      ∧ u'.enc = u.enc ∧ u'.dec = u.dec ∧ u'.params = u.params ∧ u'.moves = u.moves
      ∧ ∃ a b : Response, u.responses = b :: a :: s.responses ∧ u'.responses = a :: b :: s.responses

/-- R192: ERR and DONE are left by DEC_CLEAR and reset only, no later error replaces the status, and
DEC_CLEAR leads to READY, where the next delimiter starts a frame. -/
def Obligations.OnlyClearOrResetRecovers : Prop :=
  (∀ s t : State, s.dec.st = .err ∨ s.dec.st = .done → leftBy (step s) = some t →
      t.dec = s.dec
      ∨ ∃ rest, s.moves = .rst :: rest
        ∨ ∃ cw data, s.moves = .command cw data :: rest ∧ decode cw data = .ok .decClear)
  ∧ ∀ s : State, ∃ t u : State, exec .decClear s = .next t ∧ t.dec.st = .ready
      ∧ (∀ b : Byte, b ≠ 0x7E → exec (.decPushByte b) t
          = .next { t with responses := ⟨true, 0⟩ :: t.responses })
      ∧ exec (.decPushByte 0x7E) t = .next u ∧ u.dec.st = .sizeHigh ∧ u.dec.status = .inProgress

/-- 70_reset section 1 (a derivation of the spec's own): after DEC_CLEAR and after reset the decoder gives the
same answers, and the same outcomes, to every later sequence of decoder commands. -/
def Obligations.ClearIsIndistinguishableFromReset : Prop :=
  ∀ (s : State) (is : List Instr), (∀ i ∈ is, isEncCommand i = false) →
    let c := { s with dec := s.dec.clear }
    let r := { s with dec := State.reset.dec }
    answersOf (execAll is c) = answersOf (execAll is r)
    ∧ completes (execAll is c) = completes (execAll is r)

/-- 42_decoder.md section 4 (a derivation of the spec's own): an oversize declared length ends in SIZE_ERR on
the byte that completes it, with nothing written to PBUF. -/
def Obligations.OversizeFrameIsRejected : Prop :=
  ∀ (s : State) (len : Half), s.Inv → s.dec.st = .ready → s.params.capacity < len →
    ∃ t, execAll (decPushBytes (0x7E :: (fieldBytes len).flatMap escapeByte)) s = .next t
      ∧ t.dec.st = .err ∧ t.dec.status = .sizeErr ∧ t.dec.lenAcc = len ∧ t.dec.cnt = 0
      ∧ t.dec.pbuf = s.dec.pbuf
      ∧ ∃ n, t.responses = ⟨true, 3⟩ :: (List.replicate n ⟨true, 1⟩ ++ s.responses)

/-- 42_decoder.md section 4 (a derivation of the spec's own): the round trip. The bytes of any frame, pushed
into a decoder in READY, answer IN_PROGRESS up to the last, which answers FINISHED, and give length, payload
and addresses back. -/
def Obligations.EveryFrameDecodesToItsPayload : Prop :=
  ∀ (s : State) (len src dst : Half) (payload : List Byte), s.Inv → s.dec.st = .ready →
    payload.length = len.toNat → len ≤ s.params.capacity →
    ∃ t, execAll (decPushBytes (frameBytes s.params len src dst payload)) s = .next t
      ∧ t.dec.st = .done ∧ t.dec.status = .finished ∧ t.dec.lenAcc = len
      ∧ bufferBytes t.dec.pbuf len.toNat = payload
      ∧ (s.params.addressEn = true → t.dec.srcAcc = src ∧ t.dec.dstAcc = dst)
      ∧ (s.params.addressEn = false → t.dec.srcAcc = 0 ∧ t.dec.dstAcc = 0)
      ∧ t.responses = ⟨true, 2⟩ ::
          (List.replicate ((frameBytes s.params len src dst payload).length - 1) ⟨true, 1⟩
            ++ s.responses)

/-- 30_encoding.md section 3 and 42_decoder.md section 4 (a derivation of the spec's own): ENC_ASSEMBLE and
then LOOPBACK carries a payload from the encoder to the decoder through the commands themselves. -/
def Obligations.LoopbackDeliversThePayload : Prop :=
  ∀ (s t : State) (len src dst : Half) (payload : List Byte), s.Inv → s.dec.st = .ready →
    exec (.encAssemble len src dst payload) s = .next t →
    ∃ u, loopback t = .next u ∧ u.enc = t.enc
      ∧ u.dec.st = .done ∧ u.dec.status = .finished ∧ u.dec.lenAcc = len
      ∧ bufferBytes u.dec.pbuf len.toNat = payload
      ∧ (s.params.addressEn = true → u.dec.srcAcc = src ∧ u.dec.dstAcc = dst)

/-- 40_primitives.md section 4 with conflict C4 (a derivation of the spec's own): a frame that differs from a
correct one in exactly one payload byte ends in CHECKSUM_ERR. -/
def Obligations.OneChangedPayloadByteIsDetected : Prop :=
  ∀ (s : State) (len src dst : Half) (payload : List Byte) (k : Nat) (v : Byte),
    s.Inv → s.dec.st = .ready → s.params.checksumEn = true →
    payload.length = len.toNat → len ≤ s.params.capacity →
    k < payload.length → payload[k]? ≠ some v →
    ∃ t, execAll (decPushBytes (0x7E ::
          (fieldBytes len
            ++ (if s.params.addressEn = true then fieldBytes src ++ fieldBytes dst else [])
            ++ payload.set k v
            ++ [checksumOf s.params len src dst payload]).flatMap escapeByte)) s = .next t
      ∧ t.dec.st = .err ∧ t.dec.status = .checksumErr
      ∧ bufferBytes t.dec.pbuf len.toNat = payload.set k v
      ∧ lastData t = 4

/-- 70_reset_and_hazards.md section 1 and 20_memory.md section 1 (a derivation of the spec's own), as an
invariant of pairs of states: DEC_CLEAR and reset leave decoders the host cannot tell apart, and two such
decoders, under one configuration, stay so under every decoder command, which ends alike on both and gives both
the same answers. It is what `ClearIsIndistinguishableFromReset` rests on. -/
def Obligations.DecoderCommandsKeepTheView : Prop :=
  (∀ d : DecUnit, SameView d.clear State.reset.dec)
  ∧ ∀ (i : Instr) (s u t : State), isEncCommand i = false → s.params = u.params → SameView s.dec u.dec →
      leftBy (exec i s) = some t →
      ∃ (v : State) (given : List Response), leftBy (exec i u) = some v
        ∧ completes (exec i u) = completes (exec i s)
        ∧ SameView t.dec v.dec ∧ t.params = v.params
        ∧ t.responses = given ++ s.responses ∧ v.responses = given ++ u.responses

/-- 40_primitives.md section 4 with conflict C4 (a derivation of the spec's own): a frame that differs from a
correct one in exactly one of its four address bytes ends in CHECKSUM_ERR, with the changed addresses and the
payload received. -/
def Obligations.OneChangedAddressByteIsDetected : Prop :=
  ∀ (s : State) (len src dst : Half) (payload : List Byte) (k : Nat) (v : Byte),
    s.Inv → s.dec.st = .ready → s.params.checksumEn = true → s.params.addressEn = true →
    payload.length = len.toNat → len ≤ s.params.capacity →
    k < 4 → (fieldBytes src ++ fieldBytes dst)[k]? ≠ some v →
    ∃ t, execAll (decPushBytes (0x7E ::
          (fieldBytes len
            ++ (fieldBytes src ++ fieldBytes dst).set k v
            ++ payload
            ++ [checksumOf s.params len src dst payload]).flatMap escapeByte)) s = .next t
      ∧ t.dec.st = .err ∧ t.dec.status = .checksumErr
      ∧ fieldBytes t.dec.srcAcc ++ fieldBytes t.dec.dstAcc = (fieldBytes src ++ fieldBytes dst).set k v
      ∧ bufferBytes t.dec.pbuf len.toNat = payload
      ∧ lastData t = 4
end

