-- ==== Sys2Proof/Laws/Decode.lean ====
section
/-! SUPPORT. The fields of a word built from fields, and a word rebuilt from its own (spec/30_encoding.md R70, R71). -/

namespace Sys2Proof

/-- The opcode of a built word. -/
theorem opcField_wordOf (opc : BitVec 4) (x : BitVec 48) : opcField (wordOf opc x) = opc := by
  apply BitVec.eq_of_getLsbD_eq
  intro i hi
  simp only [opcField, wordOf, BitVec.getLsbD_extractLsb', BitVec.getLsbD_append]
  simp [hi, show ¬ 60 + i < 48 by omega, show ¬ 60 + i - 48 < 12 by omega,
    show 60 + i - 48 - 12 = i by omega]

/-- RSV of a built word. -/
theorem rsvField_wordOf (opc : BitVec 4) (x : BitVec 48) : rsvField (wordOf opc x) = 0 := by
  apply BitVec.eq_of_getLsbD_eq
  intro i hi
  simp only [rsvField, wordOf, BitVec.getLsbD_extractLsb', BitVec.getLsbD_append]
  simp
  omega

/-- An operand field of a built word is that field of its operand area. -/
theorem extract_wordOf (opc : BitVec 4) (x : BitVec 48) (k w : Nat) (h : k + w ≤ 48) :
    (wordOf opc x).extractLsb' k w = x.extractLsb' k w := by
  apply BitVec.eq_of_getLsbD_eq
  intro i hi
  simp only [wordOf, BitVec.getLsbD_extractLsb', BitVec.getLsbD_append]
  simp [hi, show k + i < 48 by omega]

/-- The low part of a concatenation. -/
theorem extract_append_low {n m : Nat} (a : BitVec n) (b : BitVec m) :
    (a ++ b).extractLsb' 0 m = b := by
  apply BitVec.eq_of_getLsbD_eq
  intro i hi
  simp [BitVec.getLsbD_append, hi]

/-- The high part of a concatenation. -/
theorem extract_append_high {n m : Nat} (a : BitVec n) (b : BitVec m) :
    (a ++ b).extractLsb' m n = a := by
  apply BitVec.eq_of_getLsbD_eq
  intro i hi
  simp [BitVec.getLsbD_append, hi, show ¬ m + i < m by omega]

/-- Two neighbouring extracts of one vector, joined. -/
theorem extract_append_extract {w : Nat} (x : BitVec w) (k n m : Nat) :
    x.extractLsb' (k + m) n ++ x.extractLsb' k m = x.extractLsb' k (n + m) := by
  apply BitVec.eq_of_getLsbD_eq
  intro i hi
  simp only [BitVec.getLsbD_append, BitVec.getLsbD_extractLsb', hi, decide_true, Bool.true_and]
  split
  · simp_all
  · simp [show i - m < n by omega, show k + m + (i - m) = k + i by omega]

/-- A word with RSV = 0 is rebuilt from its opcode and its operand area. -/
theorem wordOf_fields {cw : CmdWord} (h : rsvField cw = 0) :
    wordOf (opcField cw) (reservedN cw) = cw := by
  have h1 : opcField cw ++ rsvField cw = cw.extractLsb' 48 16 :=
    extract_append_extract cw 48 4 12
  have h2 : cw.extractLsb' 48 16 ++ reservedN cw = cw.extractLsb' 0 64 :=
    extract_append_extract cw 0 16 48
  rw [h] at h1
  have h3 : cw.extractLsb' 0 64 = cw := by
    apply BitVec.eq_of_getLsbD_eq
    intro i hi
    simp [hi]
  rw [← h1, h3] at h2
  exact h2

/-- The decoder on a built word. -/
theorem decode_wordOf (opc : BitVec 4) (x : BitVec 48) (data : List Byte) :
    decode (wordOf opc x) data =
      match opc.toNat with
      | 1 => decodeA (wordOf opc x) data
      | 2 => decodeN (wordOf opc x) data .encReadLen
      | 3 => decodeI (wordOf opc x) data .encReadByte
      | 4 => decodeB (wordOf opc x) data .decPushByte
      | 5 => decodeN (wordOf opc x) data .decClear
      | 6 => decodeN (wordOf opc x) data .decReadStatus
      | 7 => decodeN (wordOf opc x) data .decReadLen
      | 8 => decodeN (wordOf opc x) data .decReadSrc
      | 9 => decodeN (wordOf opc x) data .decReadDst
      | 10 => decodeI (wordOf opc x) data .decReadByte
      | _ => .error .reservedOpcode := by
  rw [decode, if_pos (rsvField_wordOf opc x), opcField_wordOf] <;> rfl

end Sys2Proof
end

