-- ==== Sys2Proof/Laws/Memory.lean ====
section
/-! SUPPORT. The laws of the block-local buffers: read after write, and that every operation keeps the
canonical form and the index space. -/

namespace Sys2Proof.Machine

@[simp] theorem Memory.read_nil (i : Nat) : Memory.read [] i = none := rfl

/-- Writing makes the list nonempty at the written index and keeps the others. -/
theorem Memory.read_write (m : Memory) (hm : m.wf) (i j : Nat) (v : Byte) :
    (m.write i v).read j = if j = i then some v else m.read j := by
  induction m with
  | nil => simp [Memory.write, Memory.read]
  | cons c m ih =>
    have hm' := List.pairwise_cons.mp hm
    simp only [Memory.write]
    split
    · simp [Memory.read]
    · split
      · subst_vars
        simp only [Memory.read]
        split <;> rfl
      · simp only [Memory.read, ih hm'.2]
        split
        · rename_i h1 h2 h3
          subst h3
          simp [Ne.symm h2]
        · rfl

/-- The write of R58 gives the value written. -/
theorem Memory.read_write_same (m : Memory) (i : Nat) (v : Byte) : (m.write i v).read i = some v := by
  induction m with
  | nil => simp [Memory.write, Memory.read]
  | cons c m ih =>
    simp only [Memory.write]
    split
    · simp [Memory.read]
    · split
      · simp [Memory.read]
      · rename_i h
        simp [Memory.read, h, ih]

/-- The write of R58 leaves every other element. -/
theorem Memory.read_write_other (m : Memory) (i j : Nat) (v : Byte) (h : j ≠ i) :
    (m.write i v).read j = m.read j := by
  induction m with
  | nil => simp [Memory.write, Memory.read, h]
  | cons c m ih =>
    simp only [Memory.write]
    split
    · simp [Memory.read, h]
    · split
      · rename_i h'
        simp [Memory.read, h, ← h']
      · simp [Memory.read, ih]

/-- The entries of a buffer after a write. -/
theorem Memory.mem_write (m : Memory) (i : Nat) (v : Byte) (c : Host.Cell) (h : c ∈ m.write i v) :
    c = (i, v) ∨ c ∈ m := by
  induction m with
  | nil => simpa [Memory.write] using h
  | cons c' m ih =>
    simp only [Memory.write] at h
    split at h
    · simpa using h
    · split at h
      · simp only [List.mem_cons] at h ⊢
        exact h.imp id .inr
      · simp only [List.mem_cons] at h ⊢
        rcases h with h | h
        · exact .inr (.inl h)
        · exact (ih h).imp id .inr

/-- A write keeps the canonical form. -/
theorem Memory.wf_write (m : Memory) (i : Nat) (v : Byte) (hm : m.wf) : (m.write i v).wf := by
  induction m with
  | nil => simp [Memory.write, Memory.wf]
  | cons c m ih =>
    have hc := List.pairwise_cons.mp hm
    simp only [Memory.write]
    split
    · rename_i hi
      refine List.pairwise_cons.mpr ⟨fun a ha => ?_, hm⟩
      rcases List.mem_cons.mp ha with rfl | ha
      · exact hi
      · exact Nat.lt_trans hi (hc.1 a ha)
    · split
      · rename_i hi
        exact List.pairwise_cons.mpr ⟨fun a ha => hi ▸ hc.1 a ha, hc.2⟩
      · rename_i h1 h2
        refine List.pairwise_cons.mpr ⟨fun a ha => ?_, ih hc.2⟩
        rcases Memory.mem_write m i v a ha with rfl | ha
        · simp only; omega
        · exact hc.1 a ha

/-- The buffers after reset are in canonical form. -/
theorem Memory.wf_reset : State.reset.enc.obuf.wf ∧ State.reset.dec.pbuf.wf :=
  ⟨List.Pairwise.nil, List.Pairwise.nil⟩

/-- A run of writes keeps the canonical form. -/
theorem Memory.wf_writeFrom (m : Memory) (i : Nat) (vs : List Byte) (hm : m.wf) :
    (m.writeFrom i vs).wf := by
  induction vs generalizing m i with
  | nil => exact hm
  | cons v vs ih => exact ih _ _ (Memory.wf_write m i v hm)

/-- What a run of writes leaves in every element (R51). -/
theorem Memory.read_writeFrom (m : Memory) (i j : Nat) (vs : List Byte) :
    (m.writeFrom i vs).read j = if i ≤ j ∧ j < i + vs.length then vs[j - i]? else m.read j := by
  induction vs generalizing m i with
  | nil =>
    have h : ¬ (i ≤ j ∧ j < i + ([] : List Byte).length) := by simp
    rw [if_neg h]
    rfl
  | cons v vs ih =>
    rw [Memory.writeFrom, ih]
    rcases Nat.lt_trichotomy j i with h | h | h
    · rw [if_neg (by omega), if_neg (by omega), Memory.read_write_other _ _ _ _ (by omega)]
    · subst h
      rw [if_neg (by omega), if_pos (by simp), Memory.read_write_same]
      simp
    · obtain ⟨k, rfl⟩ : ∃ k, j = i + 1 + k := ⟨j - (i + 1), by omega⟩
      simp only [List.length_cons, Nat.le_add_right, true_and]
      by_cases hk : k < vs.length
      · rw [if_pos (by omega), if_pos (by omega)]
        simp [show i + 1 + k - i = k + 1 by omega]
      · rw [if_neg (by omega), if_neg (by omega), Memory.read_write_other _ _ _ _ (by omega)]

/-- The entries of a buffer after a run of writes lie where they lay, or in the run. -/
theorem Memory.mem_writeFrom (m : Memory) (i : Nat) (vs : List Byte) (c : Host.Cell)
    (h : c ∈ m.writeFrom i vs) : c.1 < i + vs.length ∨ c ∈ m := by
  induction vs generalizing m i with
  | nil => exact .inr h
  | cons v vs ih =>
    simp only [List.length_cons]
    rcases ih _ _ h with h | h
    · exact .inl (by omega)
    · rcases Memory.mem_write m i v c h with rfl | h
      · exact .inl (by simp only; omega)
      · exact .inr h

/-- A write below the bound keeps the elements below it readable, and makes its own so. -/
theorem BufferInv.write {m : Memory} {depth n : Nat} (h : BufferInv m depth n) (v : Byte)
    (hn : n < depth) : BufferInv (m.write n v) depth (n + 1) where
  sorted := Memory.wf_write m n v h.sorted
  inside c hc := by
    rcases Memory.mem_write m n v c hc with rfl | hc
    · exact hn
    · exact h.inside c hc
  bounded := hn
  holds i hi := by
    by_cases e : i = n
    · simp [e, Memory.read_write_same]
    · rw [Memory.read_write_other _ _ _ _ e]
      exact h.holds i (by omega)

/-- The bytes below a write are what they were; the write adds its own. -/
theorem bufferBytes_write (m : Memory) (n : Nat) (v : Byte) :
    bufferBytes (m.write n v) (n + 1) = bufferBytes m n ++ [v] := by
  have low : ∀ k, k ≤ n → bufferBytes (m.write n v) k = bufferBytes m k := by
    intro k
    induction k with
    | zero => intro _; rfl
    | succ k ih =>
      intro hk
      simp only [bufferBytes]
      rw [ih (by omega), Memory.read_write_other _ _ _ _ (by omega)]
  simp only [bufferBytes]
  rw [low n (Nat.le_refl n), Memory.read_write_same]
  rfl

end Sys2Proof.Machine
end

