-- ==== Sys2Proof/Laws/Operands.lean ====
section
/-! SUPPORT. The laws of the byte primitives (spec/40_primitives.md). -/

namespace Sys2Proof.Machine

@[simp] theorem isSpecial_iff (b : Byte) : isSpecial b = true ↔ b = 0x7E ∨ b = 0x7D := by
  simp [isSpecial]

/-- ESCAPE of the two special bytes, and of every other (R100). -/
theorem escapeByte_cases (b : Byte) :
    (b = 0x7E ∧ escapeByte b = [0x7D, 0x5E]) ∨ (b = 0x7D ∧ escapeByte b = [0x7D, 0x5D])
      ∨ (b ≠ 0x7E ∧ b ≠ 0x7D ∧ escapeByte b = [b]) := by
  by_cases h : b = 0x7E
  · subst h; exact .inl ⟨rfl, rfl⟩
  · by_cases h' : b = 0x7D
    · subst h'; exact .inr (.inl ⟨rfl, rfl⟩)
    · exact .inr (.inr ⟨h, h', by simp_all [escapeByte, isSpecial]⟩)

/-- An escaped byte has the width of R80. -/
theorem length_escapeByte (b : Byte) : (escapeByte b).length = wireWidth b := by
  rcases escapeByte_cases b with ⟨rfl, h⟩ | ⟨rfl, h⟩ | ⟨h1, h2, h⟩
  · rfl
  · rfl
  · simp_all [wireWidth]

/-- UNESCAPE of a byte of class OTHER (R102). -/
theorem unescapeByte_other (esc : Bool) (b : Byte) (h : b ≠ 0x7D) :
    unescapeByte esc b = (false, some (logicalOf esc b)) := by
  cases esc <;> simp_all [unescapeByte, logicalOf]

/-- UNESCAPE of the escape byte (R102). -/
theorem unescapeByte_esc (esc : Bool) : unescapeByte esc 0x7D = (true, none) := by
  simp [unescapeByte]

/-- A list of bytes adds up in two parts. -/
theorem sumBytes_append (as bs : List Byte) : sumBytes (as ++ bs) = sumBytes as + sumBytes bs := by
  induction as with
  | nil => simp [sumBytes]
  | cons a as ih => simp [sumBytes, ih, BitVec.add_assoc]

@[simp] theorem sumBytes_nil : sumBytes [] = 0 := rfl
@[simp] theorem sumBytes_cons (b : Byte) (bs : List Byte) : sumBytes (b :: bs) = b + sumBytes bs := rfl

/-- The two bytes of a field add up byte by byte. -/
theorem sumBytes_fieldBytes (v : Half) : sumBytes (fieldBytes v) = hiByte v + loByte v := by
  simp [fieldBytes]

/-- A field is its two bytes, the high one first (R54, R55). -/
theorem hiByte_append_loByte (v : Half) : hiByte v ++ loByte v = v := by
  apply BitVec.eq_of_getLsbD_eq
  intro i hi
  simp only [BitVec.getLsbD_append, hiByte, loByte, BitVec.getLsbD_extractLsb']
  split
  · simp_all
  · rename_i h
    simp [show i - 8 < 8 by omega, show 8 + (i - 8) = i by omega]

/-- The high byte of a pair, onto an empty accumulator (R103, R150 rows 8, 10, 12). -/
theorem accum16_high_zero (h : Byte) :
    hiByte (accum16 0 h true) = h ∧ loByte (accum16 0 h true) = 0 := by
  revert h; decide

/-- A field as a number (R54). -/
theorem toNat_append_bytes (h l : Byte) : (h ++ l : Half).toNat = h.toNat * 256 + l.toNat := by
  rw [BitVec.toNat_append, ← Nat.shiftLeft_add_eq_or_of_lt l.isLt, Nat.shiftLeft_eq]

/-- The low byte of a pair fills the low half (R103, R150 rows 9, 11, 13). -/
theorem accum16_low (acc : Half) (l : Byte) (h : loByte acc = 0) :
    accum16 acc l false = hiByte acc ++ l := by
  apply BitVec.eq_of_toNat_eq
  have hacc := congrArg BitVec.toNat (hiByte_append_loByte acc)
  rw [toNat_append_bytes, h] at hacc
  have hl := l.isLt
  have hh := (hiByte acc).isLt
  rw [toNat_append_bytes]
  simp only [accum16, Bool.false_eq_true, if_false, BitVec.toNat_add, BitVec.toNat_setWidth]
  simp at hacc
  omega

end Sys2Proof.Machine
end

