-- ==== Sys2Proof/Laws/State.lean ====
section
/-! SUPPORT. One lemma per field per update of the state, and what each outcome leaves. -/

namespace Sys2Proof.Machine

/-! ### `State.answer` -/

@[simp] theorem State.answer_params (s : State) (r : Response) : (s.answer r).params = s.params := rfl
@[simp] theorem State.answer_enc (s : State) (r : Response) : (s.answer r).enc = s.enc := rfl
@[simp] theorem State.answer_dec (s : State) (r : Response) : (s.answer r).dec = s.dec := rfl
@[simp] theorem State.answer_moves (s : State) (r : Response) : (s.answer r).moves = s.moves := rfl
@[simp] theorem State.answer_responses (s : State) (r : Response) :
    (s.answer r).responses = r :: s.responses := rfl

/-! ### `State.applyReset` -/

@[simp] theorem State.applyReset_params (s : State) : s.applyReset.params = s.params := rfl
@[simp] theorem State.applyReset_enc (s : State) : s.applyReset.enc = EncUnit.reset := rfl
@[simp] theorem State.applyReset_dec (s : State) : s.applyReset.dec = DecUnit.reset := rfl
@[simp] theorem State.applyReset_moves (s : State) : s.applyReset.moves = s.moves := rfl
@[simp] theorem State.applyReset_responses (s : State) : s.applyReset.responses = s.responses := rfl

/-! ### `EncUnit.emit` -/

@[simp] theorem EncUnit.emit_obuf (e : EncUnit) (out : List Byte) :
    (e.emit out).obuf = e.obuf.writeFrom 0 out := rfl
@[simp] theorem EncUnit.emit_olen (e : EncUnit) (out : List Byte) :
    (e.emit out).olen = BitVec.ofNat 18 out.length := rfl
@[simp] theorem EncUnit.emit_encFault (e : EncUnit) (out : List Byte) :
    (e.emit out).encFault = e.encFault := rfl

/-! ### `DecUnit.recordError` and `DecUnit.recordSpecialChar` -/

@[simp] theorem DecUnit.recordError_st (d : DecUnit) (e : Status) : (d.recordError e).st = .err := rfl
@[simp] theorem DecUnit.recordError_status (d : DecUnit) (e : Status) : (d.recordError e).status = e := rfl
@[simp] theorem DecUnit.recordError_esc (d : DecUnit) (e : Status) : (d.recordError e).esc = d.esc := rfl
@[simp] theorem DecUnit.recordError_lenAcc (d : DecUnit) (e : Status) :
    (d.recordError e).lenAcc = d.lenAcc := rfl
@[simp] theorem DecUnit.recordError_cnt (d : DecUnit) (e : Status) : (d.recordError e).cnt = d.cnt := rfl
@[simp] theorem DecUnit.recordError_srcAcc (d : DecUnit) (e : Status) :
    (d.recordError e).srcAcc = d.srcAcc := rfl
@[simp] theorem DecUnit.recordError_dstAcc (d : DecUnit) (e : Status) :
    (d.recordError e).dstAcc = d.dstAcc := rfl
@[simp] theorem DecUnit.recordError_csumAcc (d : DecUnit) (e : Status) :
    (d.recordError e).csumAcc = d.csumAcc := rfl
@[simp] theorem DecUnit.recordError_pbuf (d : DecUnit) (e : Status) : (d.recordError e).pbuf = d.pbuf := rfl

/-- Entry to ERR with SPECIAL_CHAR_ERR as one update (R142). -/
theorem DecUnit.recordSpecialChar_eq (d : DecUnit) :
    d.recordSpecialChar = { d with st := .err, status := .specialCharErr, esc := false } := rfl

/-! ### `DecUnit.addToSum` -/

@[simp] theorem DecUnit.addToSum_st (d : DecUnit) (v : Byte) : (d.addToSum v).st = d.st := rfl
@[simp] theorem DecUnit.addToSum_esc (d : DecUnit) (v : Byte) : (d.addToSum v).esc = d.esc := rfl
@[simp] theorem DecUnit.addToSum_lenAcc (d : DecUnit) (v : Byte) : (d.addToSum v).lenAcc = d.lenAcc := rfl
@[simp] theorem DecUnit.addToSum_cnt (d : DecUnit) (v : Byte) : (d.addToSum v).cnt = d.cnt := rfl
@[simp] theorem DecUnit.addToSum_srcAcc (d : DecUnit) (v : Byte) : (d.addToSum v).srcAcc = d.srcAcc := rfl
@[simp] theorem DecUnit.addToSum_dstAcc (d : DecUnit) (v : Byte) : (d.addToSum v).dstAcc = d.dstAcc := rfl
@[simp] theorem DecUnit.addToSum_csumAcc (d : DecUnit) (v : Byte) :
    (d.addToSum v).csumAcc = d.csumAcc + v := rfl
@[simp] theorem DecUnit.addToSum_status (d : DecUnit) (v : Byte) : (d.addToSum v).status = d.status := rfl
@[simp] theorem DecUnit.addToSum_pbuf (d : DecUnit) (v : Byte) : (d.addToSum v).pbuf = d.pbuf := rfl

/-! ### `DecUnit.clear` -/

/-- DEC_CLEAR's state as one record (R151). -/
theorem DecUnit.clear_eq (d : DecUnit) :
    d.clear = { st := .ready, esc := false, lenAcc := 0, cnt := 0, srcAcc := 0, dstAcc := 0,
                csumAcc := 0, status := .idle, pbuf := d.pbuf } := rfl
@[simp] theorem DecUnit.clear_st (d : DecUnit) : d.clear.st = .ready := rfl
@[simp] theorem DecUnit.clear_esc (d : DecUnit) : d.clear.esc = false := rfl
@[simp] theorem DecUnit.clear_lenAcc (d : DecUnit) : d.clear.lenAcc = 0 := rfl
@[simp] theorem DecUnit.clear_cnt (d : DecUnit) : d.clear.cnt = 0 := rfl
@[simp] theorem DecUnit.clear_srcAcc (d : DecUnit) : d.clear.srcAcc = 0 := rfl
@[simp] theorem DecUnit.clear_dstAcc (d : DecUnit) : d.clear.dstAcc = 0 := rfl
@[simp] theorem DecUnit.clear_csumAcc (d : DecUnit) : d.clear.csumAcc = 0 := rfl
@[simp] theorem DecUnit.clear_status (d : DecUnit) : d.clear.status = .idle := rfl
@[simp] theorem DecUnit.clear_pbuf (d : DecUnit) : d.clear.pbuf = d.pbuf := rfl

/-! ### Outcomes -/

@[simp] theorem leftBy_next (t : State) : leftBy (.next t) = some t := rfl
@[simp] theorem leftBy_respond {w : Nat} (v : BitVec w) (s : State) :
    leftBy (respond v s) = some (s.answer ⟨true, v.setWidth 32⟩) := rfl
@[simp] theorem leftBy_raiseEncSizeViolation (s : State) :
    leftBy (raiseEncSizeViolation s)
      = some ({ s with enc := { s.enc with encFault := true } }.answer ⟨false, 1⟩) := rfl
@[simp] theorem leftBy_raiseAccessOutOfRange (s : State) :
    leftBy (raiseAccessOutOfRange s) = some (s.answer ⟨false, 2⟩) := rfl
@[simp] theorem leftBy_refuseIllegalCommand (s : State) :
    leftBy (refuseIllegalCommand s) = some (s.answer ⟨false, 3⟩) := rfl

end Sys2Proof.Machine
end

