-- ==== Sys2Proof/Laws/Ops.lean ====
section
/-! SUPPORT. What each shared operation can do, said once. -/

namespace Sys2Proof.Machine

/-- A buffer read below the bound, of an element that holds a value (R53). -/
theorem respondElement_of_read {m : Memory} {bound : Nat} {idx : Index} {v : Byte} (s : State)
    (hi : idx.toNat < bound) (hv : m.read idx.toNat = some v) :
    respondElement m bound idx s = .next (s.answer ⟨true, v.setWidth 32⟩) := by
  simp [respondElement, hi, hv, respond]

/-- A buffer read at or above the bound (R53, R186). -/
theorem respondElement_of_le {m : Memory} {bound : Nat} {idx : Index} (s : State)
    (hi : bound ≤ idx.toNat) : respondElement m bound idx s = raiseAccessOutOfRange s := by
  simp [respondElement, Nat.not_lt.mpr hi]

/-- Whatever a buffer read does, it answers once and changes nothing else. -/
theorem respondElement_cases (m : Memory) (bound : Nat) (idx : Index) (s : State) :
    (∃ v : Byte, respondElement m bound idx s = .next (s.answer ⟨true, v.setWidth 32⟩)
        ∧ idx.toNat < bound ∧ m.read idx.toNat = some v)
      ∨ (respondElement m bound idx s = .fault (.accessOutOfRange (s.answer ⟨false, 2⟩))
        ∧ (bound ≤ idx.toNat ∨ m.read idx.toNat = none)) := by
  simp only [respondElement]
  split
  · cases hv : m.read idx.toNat with
    | some v => exact .inl ⟨v, rfl, ‹_›, rfl⟩
    | none => exact .inr ⟨rfl, .inr rfl⟩
  · exact .inr ⟨rfl, .inl (by omega)⟩

/-- An encoder command while the fault flag is clear (R188). -/
theorem whenEncoderEnabled_of_clear {s : State} (h : s.enc.encFault = false)
    (o : Host.Outcome State Fault Refusal) : whenEncoderEnabled s o = o := by
  simp [whenEncoderEnabled, h]

/-- An encoder command while the fault flag is set (R24). -/
theorem whenEncoderEnabled_of_set {s : State} (h : s.enc.encFault = true)
    (o : Host.Outcome State Fault Refusal) : whenEncoderEnabled s o = raiseEncSizeViolation s := by
  simp [whenEncoderEnabled, h]

/-- EncSizeViolation of an encoder whose flag is already set leaves the flag as it is. -/
theorem raiseEncSizeViolation_of_set {s : State} (h : s.enc.encFault = true) :
    raiseEncSizeViolation s = .fault (.encSizeViolation (s.answer ⟨false, 1⟩)) := by
  obtain ⟨p, ⟨o, l, f⟩, d, m, r⟩ := s
  simp only at h
  subst h
  rfl

/-- ENC_ASSEMBLE's four outcomes (R76, R120). -/
theorem execEncAssemble_cases (len src dst : Half) (payload : List Byte) (s : State) :
    (payload.length ≠ len.toNat
        ∧ execEncAssemble len src dst payload s = .refused .illFormedCommand)
      ∨ (payload.length = len.toNat ∧ (s.enc.encFault = true ∨ s.params.capacity < len)
        ∧ execEncAssemble len src dst payload s = raiseEncSizeViolation s)
      ∨ (payload.length = len.toNat ∧ s.enc.encFault = false ∧ len ≤ s.params.capacity
        ∧ execEncAssemble len src dst payload s = assembleFrame len src dst payload s) := by
  by_cases hl : payload.length = len.toNat
  · cases hf : s.enc.encFault with
    | true => exact .inr (.inl ⟨hl, .inl rfl, by simp [execEncAssemble, hl, whenEncoderEnabled, hf]⟩)
    | false =>
      by_cases hc : s.params.capacity < len
      · exact .inr (.inl ⟨hl, .inr hc, by simp [execEncAssemble, hl, whenEncoderEnabled, hf, hc]⟩)
      · exact .inr (.inr ⟨hl, rfl, BitVec.not_lt.mp hc,
          by simp [execEncAssemble, hl, whenEncoderEnabled, hf, hc]⟩)
  · exact .inl ⟨hl, by simp [execEncAssemble, hl]⟩

/-- What a step does, by the move it takes (R11, R223). -/
theorem step_cases (s : State) :
    (s.moves = [] ∧ step s = .next s)
      ∨ (∃ rest, s.moves = .rst :: rest ∧ step s = .next { s with moves := rest }.applyReset)
      ∨ (∃ cw data rest i, s.moves = .command cw data :: rest ∧ decode cw data = .ok i
        ∧ step s = exec i { s with moves := rest })
      ∨ (∃ cw data rest e, s.moves = .command cw data :: rest ∧ decode cw data = .error e
        ∧ step s = refuseCommand e { s with moves := rest }) := by
  simp only [step, takeMove]
  match hm : s.moves with
  | [] => exact .inl ⟨rfl, rfl⟩
  | .rst :: rest => exact .inr (.inl ⟨rest, rfl, rfl⟩)
  | .command cw data :: rest =>
    cases hd : decode cw data with
    | ok i => exact .inr (.inr (.inl ⟨cw, data, rest, i, rfl, hd, by simp [takeCommand, hd]⟩))
    | error e => exact .inr (.inr (.inr ⟨cw, data, rest, e, rfl, hd, by simp [takeCommand, hd]⟩))

/-- A refused command leaves the state as it was but for the answer, or never reached the machine. -/
theorem leftBy_refuseCommand {e : DecodeError} {s t : State} (h : leftBy (refuseCommand e s) = some t) :
    t = s.answer ⟨false, 3⟩ := by
  cases e with
  | reservedOpcode => exact (Option.some.inj h).symm
  | reservedBits => exact (Option.some.inj h).symm
  | dataPhase => cases h

end Sys2Proof.Machine
end

