-- ==== Sys2Proof/Laws/PerInstr.lean ====
section
/-! SUPPORT. A law of every command as syntax: its encoded word is of its own row of the opcode table (R71, R72). -/

namespace Sys2Proof.Laws.TableRow

/-- The encoded word agrees with the row's pattern on the row's mask. -/
def Statement (i : Instr) : Prop :=
  encodeWord i &&& (rowOf i).mask = (rowOf i).pattern

/-- Masking a concatenation masks its parts. -/
theorem append_and_append {n m : Nat} (a c : BitVec n) (b d : BitVec m) :
    ((a ++ b : BitVec (n + m)) &&& (c ++ d : BitVec (n + m))) = (a &&& c) ++ (b &&& d) := by
  apply BitVec.eq_of_getLsbD_eq
  intro i hi
  simp only [BitVec.getLsbD_and, BitVec.getLsbD_append]
  split <;> rfl

/-- A command word masked in its operand bits only. -/
theorem wordOf_and (opc : BitVec 4) (operands m : BitVec 48) :
    wordOf opc operands &&& (0xFFFF#16 ++ m) = wordOf opc (operands &&& m) := by
  have h2 : ∀ o : BitVec 4, (o ++ 0#12) &&& 0xFFFF#16 = o ++ 0#12 := by decide
  have h := append_and_append (opc ++ 0#12) (0xFFFF#16) operands m
  rw [h2] at h
  exact h

/-- One operand field below reserved zeros, masked above the field. -/
theorem zero_append_and {n m : Nat} (v : BitVec m) :
    ((0#n ++ v : BitVec (n + m)) &&& (BitVec.allOnes n ++ 0#m : BitVec (n + m))) = 0#(n + m) := by
  rw [append_and_append]
  simp

theorem encAssemble (len src dst : Half) (payload : List Byte) :
    Statement (.encAssemble len src dst payload) :=
  (wordOf_and 0x1 (len ++ src ++ dst) (0#48)).trans (by rw [BitVec.and_zero]; rfl)

theorem encReadLen : Statement .encReadLen := by unfold Statement; decide

theorem encReadByte (idx : Index) : Statement (.encReadByte idx) :=
  (wordOf_and 0x3 _ (BitVec.allOnes 30 ++ 0#18)).trans (congrArg (wordOf 0x3) (zero_append_and idx))

theorem decPushByte (b : Byte) : Statement (.decPushByte b) :=
  (wordOf_and 0x4 _ (BitVec.allOnes 40 ++ 0#8)).trans (congrArg (wordOf 0x4) (zero_append_and b))

theorem decClear : Statement .decClear := by unfold Statement; decide

theorem decReadStatus : Statement .decReadStatus := by unfold Statement; decide

theorem decReadLen : Statement .decReadLen := by unfold Statement; decide

theorem decReadSrc : Statement .decReadSrc := by unfold Statement; decide

theorem decReadDst : Statement .decReadDst := by unfold Statement; decide

theorem decReadByte (idx : Index) : Statement (.decReadByte idx) :=
  (wordOf_and 0xA _ (BitVec.allOnes 30 ++ 0#18)).trans (congrArg (wordOf 0xA) (zero_append_and idx))

end Sys2Proof.Laws.TableRow
end

