-- ==== Sys2Proof/Laws/Push.lean ====
section
/-! SUPPORT. DEC_PUSH_BYTE by the rows of spec/42_decoder.md R150. -/

namespace Sys2Proof.Machine

/-- Rows 1 and 2: DONE and ERR absorb every byte (R141). -/
theorem DecUnit.push_absorb (p : Params) (b : Byte) {d : DecUnit} (h : d.st = .done ∨ d.st = .err) :
    d.push p b = some (d, d.status) := by
  simp [DecUnit.push, h]

/-- A state of a frame is none of READY, DONE, ERR. -/
theorem midFrame_ne {st : DecState} (h : midFrame st = true) :
    st ≠ .ready ∧ st ≠ .done ∧ st ≠ .err := by
  cases st <;> simp_all [midFrame]

/-- Rows 5 and 6: the special-character error (R142). -/
theorem DecUnit.push_special (p : Params) {b : Byte} {d : DecUnit} (h : midFrame d.st = true)
    (hb : b = 0x7E ∨ (b = 0x7D ∧ d.esc = true)) :
    d.push p b = some (d.recordSpecialChar, .specialCharErr) := by
  obtain ⟨h1, h2, h3⟩ := midFrame_ne h
  rcases hb with rfl | ⟨rfl, he⟩ <;> simp_all [DecUnit.push, specialCharError]

/-- Row 3: the delimiter in READY (R143). -/
theorem DecUnit.push_ready_flag (p : Params) {d : DecUnit} (h : d.st = .ready) :
    d.push p 0x7E = some ({ d with st := .sizeHigh, status := .inProgress }, .inProgress) := by
  simp [DecUnit.push, specialCharError, h]

/-- Row 4: any other byte in READY (R143). -/
theorem DecUnit.push_ready_other (p : Params) {b : Byte} {d : DecUnit} (h : d.st = .ready)
    (he : d.esc = false) (hb : b ≠ 0x7E) : d.push p b = some (d, .idle) := by
  simp_all [DecUnit.push, specialCharError]

/-- Row 7: the escape byte inside a frame (R144). -/
theorem DecUnit.push_escape (p : Params) {d : DecUnit} (h : midFrame d.st = true) (he : d.esc = false) :
    d.push p 0x7D = some ({ d with esc := true }, .inProgress) := by
  obtain ⟨h1, h2, h3⟩ := midFrame_ne h
  simp_all [DecUnit.push, specialCharError, DecUnit.takeWireByte, unescapeByte]

/-- Rows 8 to 15: a byte of class OTHER inside a frame is one logical byte (R140 steps 4 and 5). -/
theorem DecUnit.push_other (p : Params) {b : Byte} {d : DecUnit} (h : midFrame d.st = true)
    (h1 : b ≠ 0x7E) (h2 : b ≠ 0x7D) :
    d.push p b = (DecUnit.takeLogical p (logicalOf d.esc b) { d with esc := false }).map
      fun d' => (d', d'.status) := by
  obtain ⟨n1, n2, n3⟩ := midFrame_ne h
  have hs : specialCharError d.st d.esc b = false := by simp_all [specialCharError]
  simp [DecUnit.push, n1, n2, n3, hs, DecUnit.takeWireByte, unescapeByte_other d.esc b h2]

/-- The rows of R150, said once: what a byte that is taken leaves. A byte in READY with `esc` set, which no
run meets, is the first case. -/
theorem DecUnit.push_cases {p : Params} {b : Byte} {d d' : DecUnit} {r : Status}
    (h : d.push p b = some (d', r)) :
    (d.st = .ready ∧ d.esc = true)
      ∨ (midFrame d.st = false ∧ d' = d ∧ (d.st ≠ .ready → r = d.status) ∧ (d.st = .ready → r = .idle))
      ∨ (d.st = .ready ∧ b = 0x7E ∧ r = .inProgress
          ∧ d' = { d with st := .sizeHigh, status := .inProgress })
      ∨ (midFrame d.st = true ∧ r = .specialCharErr ∧ d' = d.recordSpecialChar)
      ∨ (midFrame d.st = true ∧ d.esc = false ∧ b = 0x7D ∧ r = .inProgress ∧ d' = { d with esc := true })
      ∨ (midFrame d.st = true ∧ b ≠ 0x7E ∧ b ≠ 0x7D ∧ r = d'.status
          ∧ DecUnit.takeLogical p (logicalOf d.esc b) { d with esc := false } = some d') := by
  by_cases hd : d.st = .done ∨ d.st = .err
  · rw [DecUnit.push_absorb p b hd] at h
    simp only [Option.some.injEq, Prod.mk.injEq] at h
    refine .inr (.inl ⟨?_, h.1.symm, fun _ => h.2.symm, ?_⟩)
    · rcases hd with e | e <;> simp [e, midFrame]
    · rcases hd with e | e <;> simp [e]
  by_cases hr : d.st = .ready
  · by_cases he : d.esc = true
    · exact .inl ⟨hr, he⟩
    by_cases hb : b = 0x7E
    · subst hb
      rw [DecUnit.push_ready_flag p hr] at h
      simp only [Option.some.injEq, Prod.mk.injEq] at h
      exact .inr (.inr (.inl ⟨hr, rfl, h.2.symm, h.1.symm⟩))
    · rw [DecUnit.push_ready_other p hr (by simpa using he) hb] at h
      simp only [Option.some.injEq, Prod.mk.injEq] at h
      exact .inr (.inl ⟨by simp [hr, midFrame], h.1.symm, fun n => absurd hr n, fun _ => h.2.symm⟩)
  have hm : midFrame d.st = true := by cases e : d.st <;> simp_all [midFrame]
  by_cases hb : b = 0x7E ∨ (b = 0x7D ∧ d.esc = true)
  · rw [DecUnit.push_special p hm hb] at h
    simp only [Option.some.injEq, Prod.mk.injEq] at h
    exact .inr (.inr (.inr (.inl ⟨hm, h.2.symm, h.1.symm⟩)))
  push Not at hb
  by_cases h7 : b = 0x7D
  · have he : d.esc = false := by simpa using hb.2 h7
    subst h7
    rw [DecUnit.push_escape p hm he] at h
    simp only [Option.some.injEq, Prod.mk.injEq] at h
    exact .inr (.inr (.inr (.inr (.inl ⟨hm, he, rfl, h.2.symm, h.1.symm⟩))))
  · rw [DecUnit.push_other p hm hb.1 h7] at h
    simp only [Option.map_eq_some_iff, Prod.mk.injEq] at h
    obtain ⟨d'', h1, h2, h3⟩ := h
    subst h2
    exact .inr (.inr (.inr (.inr (.inr ⟨hm, hb.1, h7, h3.symm, h1⟩))))

/-- DEC_PUSH_BYTE through the unit's step (R140). -/
theorem execDecPushByte_of_push {b : Byte} {s : State} {d : DecUnit} {r : Status}
    (h : s.dec.push s.params b = some (d, r)) :
    execDecPushByte b s = .next ({ s with dec := d }.answer ⟨true, r.code.setWidth 32⟩) := by
  simp [execDecPushByte, h, respond]

/-- DEC_PUSH_BYTE of a byte of class OTHER inside a frame (R150 rows 8 to 15). -/
theorem execDecPushByte_of_other {b : Byte} {s : State} {d : DecUnit} (h : midFrame s.dec.st = true)
    (h1 : b ≠ 0x7E) (h2 : b ≠ 0x7D)
    (hd : DecUnit.takeLogical s.params (logicalOf s.dec.esc b) { s.dec with esc := false } = some d) :
    execDecPushByte b s = .next ({ s with dec := d }.answer ⟨true, d.status.code.setWidth 32⟩) :=
  execDecPushByte_of_push (by rw [DecUnit.push_other s.params h h1 h2, hd]; rfl)

/-- A received checksum that is the expected one (R148). -/
theorem DecUnit.takeChecksum_of_eq {d : DecUnit} {v : Byte} (h : v = 0xFF - d.csumAcc) :
    d.takeChecksum v = { d with st := .done, status := .finished } :=
  if_pos h

/-- A received checksum that is not the expected one (R148). -/
theorem DecUnit.takeChecksum_of_ne {d : DecUnit} {v : Byte} (h : v ≠ 0xFF - d.csumAcc) :
    d.takeChecksum v = d.recordError .checksumErr :=
  if_neg h

/-- A payload byte for which PBUF has an element (R147). -/
theorem DecUnit.takeData_of_lt {p : Params} {d : DecUnit} (v : Byte) (h : d.cnt < p.capacity) :
    d.takeData p v =
      let d' := { d.addToSum v with pbuf := d.pbuf.write d.cnt.toNat v, cnt := d.cnt + 1 }
      some (if d.cnt.toNat + 1 = d.lenAcc.toNat then d'.exitData p else d') :=
  if_pos h

/-- What a completed DEC_PUSH_BYTE has done. -/
theorem execDecPushByte_next {b : Byte} {s t : State} (h : execDecPushByte b s = .next t) :
    ∃ d r, s.dec.push s.params b = some (d, r)
      ∧ t = { s with dec := d }.answer ⟨true, r.code.setWidth 32⟩ := by
  simp only [execDecPushByte] at h
  split at h
  · exact ⟨_, _, ‹_›, by simpa [respond] using h.symm⟩
  · cases h

end Sys2Proof.Machine
end

