-- ==== Sys2Proof/Laws/Run.lean ====
section
/-! SUPPORT. Runs of commands (spec/70_reset_and_hazards.md R224), and the wire bytes of one logical byte
pushed into a decoder inside a frame. -/

namespace Sys2Proof.Machine

/-- A run in two parts. -/
theorem execAll_append (is js : List Instr) (s : State) :
    execAll (is ++ js) s =
      match execAll is s with
      | .next t => execAll js t
      | .fault r => .fault r
      | .refused r => .refused r := by
  induction is generalizing s with
  | nil => rfl
  | cons i is ih =>
    simp only [List.cons_append, execAll]
    cases exec i s with
    | next t => exact ih t
    | fault r => rfl
    | refused r => rfl

/-- A run whose first part completes goes on from there. -/
theorem execAll_append_of_next {is : List Instr} {s t : State} (h : execAll is s = .next t)
    (js : List Instr) : execAll (is ++ js) s = execAll js t := by
  rw [execAll_append, h]

/-- Bytes pushed in two parts. -/
theorem decPushBytes_append (as bs : List Byte) :
    decPushBytes (as ++ bs) = decPushBytes as ++ decPushBytes bs :=
  List.map_append

/-- The one or two wire bytes of a logical byte, pushed inside a frame: IN_PROGRESS for an escape byte, then
the state's own step on the logical byte (R101, R140). -/
theorem execAll_push_escapeByte {v : Byte} {s : State} {d : DecUnit} (h : midFrame s.dec.st = true)
    (he : s.dec.esc = false) (hd : DecUnit.takeLogical s.params v s.dec = some d) :
    execAll (decPushBytes (escapeByte v)) s =
      .next { s with
        dec := d
        responses := ⟨true, d.status.code.setWidth 32⟩
          :: (List.replicate (wireWidth v - 1) ⟨true, 1⟩ ++ s.responses) } := by
  have keep : ({ s.dec with esc := false } : DecUnit) = s.dec := by rw [← he]
  have pair : ∀ b : Byte, b ≠ 0x7E → b ≠ 0x7D → b ^^^ 0x20 = v → wireWidth v = 2 →
      execAll (decPushBytes [0x7D, b]) s =
        .next { s with
          dec := d
          responses := ⟨true, d.status.code.setWidth 32⟩
            :: (List.replicate (wireWidth v - 1) ⟨true, 1⟩ ++ s.responses) } := by
    intro b h1 h2 hv hw
    have first := execDecPushByte_of_push (s := s) (DecUnit.push_escape s.params h he)
    have second := execDecPushByte_of_other (b := b)
      (s := { s with dec := { s.dec with esc := true } }.answer ⟨true, 1⟩) (d := d) h h1 h2
      (by
        show DecUnit.takeLogical s.params (b ^^^ 0x20) { s.dec with esc := false } = some d
        rw [hv, keep, hd])
    simp only [decPushBytes, List.map, execAll, exec]
    rw [first]
    simp only [Status.code]
    rw [show (BitVec.setWidth 32 (1 : BitVec 3)) = 1 from rfl, second, hw]
    rfl
  rcases escapeByte_cases v with ⟨rfl, e⟩ | ⟨rfl, e⟩ | ⟨h1, h2, e⟩
  · rw [e]; exact pair 0x5E (by decide) (by decide) rfl rfl
  · rw [e]; exact pair 0x5D (by decide) (by decide) rfl rfl
  · have hw : wireWidth v = 1 := by simp_all [wireWidth]
    have one := execDecPushByte_of_other (s := s) (d := d) h h1 h2
      (by rw [he, logicalOf, keep]; exact hd)
    rw [e, hw]
    simp only [decPushBytes, List.map, execAll, exec]
    rw [one]
    rfl

end Sys2Proof.Machine
end

