-- ==== Sys2Proof/Laws/View.lean ====
section
/-! SUPPORT. DEC_PUSH_BYTE never reads PBUF: what a logical byte does to PBUF and `cnt`, and that the rest of
what it does is the same whatever PBUF holds (spec/20_memory.md R52, R53). -/

namespace Sys2Proof.Machine

/-! ### The step of a decoder with another PBUF -/

/-- EXIT_DATA does not look at PBUF. -/
theorem DecUnit.exitData_pbuf (p : Params) (d : DecUnit) (m : Memory) :
    DecUnit.exitData p { d with pbuf := m } = { d.exitData p with pbuf := m } := by
  unfold DecUnit.exitData; split <;> rfl

/-- ENTER_DATA does not look at PBUF. -/
theorem DecUnit.enterData_pbuf (p : Params) (len : Half) (d : DecUnit) (m : Memory) :
    DecUnit.enterData p len { d with pbuf := m } = { d.enterData p len with pbuf := m } := by
  unfold DecUnit.enterData; split
  · exact DecUnit.exitData_pbuf p d m
  · rfl

/-- The byte that completes the length does not look at PBUF. -/
theorem DecUnit.takeSizeLow_pbuf (p : Params) (v : Byte) (d : DecUnit) (m : Memory) :
    DecUnit.takeSizeLow p v { d with pbuf := m } = { d.takeSizeLow p v with pbuf := m } := by
  simp only [DecUnit.takeSizeLow]
  split
  · rfl
  · split
    · rfl
    · exact DecUnit.enterData_pbuf p _ { d.addToSum v with lenAcc := accum16 d.lenAcc v false } m

/-- The received checksum does not look at PBUF. -/
theorem DecUnit.takeChecksum_pbuf (v : Byte) (d : DecUnit) (m : Memory) :
    DecUnit.takeChecksum v { d with pbuf := m } = { d.takeChecksum v with pbuf := m } := by
  unfold DecUnit.takeChecksum; split <;> rfl

/-- A payload byte writes PBUF and does not look at it. -/
theorem DecUnit.takeData_pbuf (p : Params) (v : Byte) (d : DecUnit) (m : Memory) :
    DecUnit.takeData p v { d with pbuf := m }
      = (d.takeData p v).map fun e => { e with pbuf := m.write d.cnt.toNat v } := by
  simp only [DecUnit.takeData]
  split
  · simp only [Option.map_some, Option.some.injEq]
    split
    · exact DecUnit.exitData_pbuf p
        { d.addToSum v with pbuf := d.pbuf.write d.cnt.toNat v, cnt := d.cnt + 1 } _
    · rfl
  · rfl

/-- A logical byte: the registers and the outcome do not depend on PBUF, and only DATA writes it. -/
theorem DecUnit.takeLogical_pbuf (p : Params) (v : Byte) (d : DecUnit) (m : Memory) :
    DecUnit.takeLogical p v { d with pbuf := m }
      = (DecUnit.takeLogical p v d).map fun e =>
          { e with pbuf := if d.st = .data then m.write d.cnt.toNat v else m } := by
  cases h : d.st <;> simp only [DecUnit.takeLogical, h, reduceCtorEq, if_true, if_false, Option.map_some]
  · rfl
  · exact congrArg some (DecUnit.takeSizeLow_pbuf p v d m)
  · rfl
  · rfl
  · rfl
  · exact congrArg some
      (DecUnit.enterData_pbuf p _ { d.addToSum v with dstAcc := accum16 d.dstAcc v false } m)
  · rw [← h]; exact DecUnit.takeData_pbuf p v d m
  · exact congrArg some (DecUnit.takeChecksum_pbuf v d m)

/-! ### What a logical byte does to PBUF and `cnt` -/

/-- EXIT_DATA keeps both. -/
theorem DecUnit.exitData_buffer (p : Params) (d : DecUnit) :
    (d.exitData p).pbuf = d.pbuf ∧ (d.exitData p).cnt = d.cnt := by
  unfold DecUnit.exitData; split <;> exact ⟨rfl, rfl⟩

/-- ENTER_DATA keeps both. -/
theorem DecUnit.enterData_buffer (p : Params) (len : Half) (d : DecUnit) :
    (d.enterData p len).pbuf = d.pbuf ∧ (d.enterData p len).cnt = d.cnt := by
  unfold DecUnit.enterData; split
  · exact DecUnit.exitData_buffer p d
  · exact ⟨rfl, rfl⟩

/-- A logical byte changes both in DATA, and neither elsewhere (R52). -/
theorem DecUnit.takeLogical_buffer {p : Params} {v : Byte} {d e : DecUnit}
    (h : DecUnit.takeLogical p v d = some e) :
    (d.st ≠ .data ∧ e.pbuf = d.pbuf ∧ e.cnt = d.cnt)
      ∨ (d.st = .data ∧ e.pbuf = d.pbuf.write d.cnt.toNat v ∧ e.cnt = d.cnt + 1) := by
  cases hs : d.st <;> simp only [DecUnit.takeLogical, hs, Option.some.injEq] at h
  case data =>
    refine .inr ⟨rfl, ?_⟩
    simp only [DecUnit.takeData] at h
    split at h
    · cases h
      split
      · exact DecUnit.exitData_buffer p _
      · exact ⟨rfl, rfl⟩
    · cases h
  all_goals refine .inl ⟨by simp, ?_⟩; subst h
  case sizeLow =>
    simp only [DecUnit.takeSizeLow]
    split
    · exact ⟨rfl, rfl⟩
    · split
      · exact ⟨rfl, rfl⟩
      · exact DecUnit.enterData_buffer p _ _
  case dstAddrLow => exact DecUnit.enterData_buffer p _ _
  case checksum => unfold DecUnit.takeChecksum; split <;> exact ⟨rfl, rfl⟩
  all_goals exact ⟨rfl, rfl⟩

/-- Two decoders of one view differ in PBUF only. -/
theorem SameView.eq_with {d e : DecUnit} (h : SameView d e) : d = { e with pbuf := d.pbuf } := by
  obtain ⟨h, -⟩ := h
  cases d; cases e
  simp_all

end Sys2Proof.Machine
end

