-- ==== Sys2Proof/Laws/Walk.lean ====
section
/-! SUPPORT. Several logical bytes in a row: the states they lead through, and the run of their wire bytes
(spec/42_decoder.md R140). -/

namespace Sys2Proof.Machine

/-- A decoder inside a frame that waits for the first wire byte of a logical byte. -/
def DecUnit.awaits (d : DecUnit) : Prop :=
  midFrame d.st = true ∧ d.esc = false ∧ d.status = .inProgress

/-- Logical bytes taken one after another, each inside the frame, and the decoder they leave. -/
inductive Walk (p : Params) : DecUnit → List Byte → DecUnit → Prop where
  | one {d e : DecUnit} {v : Byte} : d.awaits → DecUnit.takeLogical p v d = some e → Walk p d [v] e
  | cons {d e f : DecUnit} {v : Byte} {vs : List Byte} :
      d.awaits → DecUnit.takeLogical p v d = some e → Walk p e vs f → Walk p d (v :: vs) f

theorem Walk.awaits {p : Params} {d e : DecUnit} {vs : List Byte} (h : Walk p d vs e) : d.awaits := by
  cases h <;> assumption

/-- Walks compose. -/
theorem Walk.append {p : Params} {d e f : DecUnit} {as bs : List Byte} (h : Walk p d as e)
    (g : Walk p e bs f) : Walk p d (as ++ bs) f := by
  induction h with
  | one a b => exact .cons a b g
  | cons a b _ ih => exact .cons a b (ih g)

/-- An escaped byte is not empty. -/
theorem length_escapeByte_pos (v : Byte) : 1 ≤ (escapeByte v).length := by
  rcases escapeByte_cases v with ⟨_, e⟩ | ⟨_, e⟩ | ⟨_, _, e⟩ <;> rw [e] <;> simp

/-- A walk takes at least one wire byte. -/
theorem Walk.length_pos {p : Params} {d e : DecUnit} {vs : List Byte} (h : Walk p d vs e) :
    1 ≤ (vs.flatMap escapeByte).length := by
  cases h <;> rw [List.flatMap_cons, List.length_append] <;>
    exact Nat.le_trans (length_escapeByte_pos _) (Nat.le_add_right _ _)

/-- The wire bytes of a walk: IN_PROGRESS up to the last, which answers the status it leaves. -/
theorem Walk.run {p : Params} {d e : DecUnit} {vs : List Byte} (h : Walk p d vs e) :
    ∀ s : State, s.dec = d → s.params = p →
      execAll (decPushBytes (vs.flatMap escapeByte)) s =
        .next { s with
          dec := e
          responses := ⟨true, e.status.code.setWidth 32⟩
            :: (List.replicate ((vs.flatMap escapeByte).length - 1) ⟨true, 1⟩ ++ s.responses) } := by
  induction h with
  | one a b =>
    intro s hs hp
    subst hs hp
    rw [List.flatMap_cons, List.flatMap_nil, List.append_nil, execAll_push_escapeByte a.1 a.2.1 b,
      length_escapeByte]
  | @cons d e f v vs a b w ih =>
    intro s hs hp
    subst hs hp
    rw [List.flatMap_cons, decPushBytes_append,
      execAll_append_of_next (execAll_push_escapeByte a.1 a.2.1 b)]
    refine (ih { s with
      dec := e
      responses := ⟨true, e.status.code.setWidth 32⟩
        :: (List.replicate (wireWidth v - 1) ⟨true, 1⟩ ++ s.responses) } rfl rfl).trans ?_
    have h1 := length_escapeByte_pos v
    have h2 := w.length_pos
    simp only [w.awaits.2.2, ← length_escapeByte, List.length_append]
    congr 3
    rw [show (escapeByte v).length + (vs.flatMap escapeByte).length - 1
        = ((vs.flatMap escapeByte).length - 1) + ((escapeByte v).length - 1 + 1) by omega,
      List.replicate_add, List.replicate_succ (n := (escapeByte v).length - 1), List.append_assoc]
    rfl

/-- The rest of a payload in DATA: it fills PBUF from `cnt` up and leaves DATA (R147). -/
theorem walk_payload (p : Params) (vs : List Byte) (d : DecUnit) (hs : d.st = .data)
    (he : d.esc = false) (hst : d.status = .inProgress) (hne : vs ≠ []) (hl : d.lenAcc ≤ p.capacity)
    (hc : d.cnt.toNat + vs.length = d.lenAcc.toNat) :
    Walk p d vs (DecUnit.exitData p { d with
      cnt := d.lenAcc
      csumAcc := d.csumAcc + sumBytes vs
      pbuf := d.pbuf.writeFrom d.cnt.toNat vs }) := by
  induction vs generalizing d with
  | nil => exact absurd rfl hne
  | cons v vs ih =>
    have hl' := BitVec.le_def.mp hl
    have hlt := d.lenAcc.isLt
    simp only [List.length_cons] at hc
    have hcn : (d.cnt + 1).toNat = d.cnt.toNat + 1 := by rw [BitVec.toNat_add]; simp; omega
    have hd : d.awaits := ⟨by rw [hs]; rfl, he, hst⟩
    have ht : DecUnit.takeLogical p v d = _ :=
      (by simp only [DecUnit.takeLogical, hs] : DecUnit.takeLogical p v d = d.takeData p v).trans
        (DecUnit.takeData_of_lt v (BitVec.lt_def.mpr (by omega)))
    cases vs with
    | nil =>
      refine .one hd (ht.trans (congrArg some ?_))
      rw [if_pos (by simpa using hc)]
      congr 1
      simp only [DecUnit.addToSum, Memory.writeFrom, sumBytes_cons, sumBytes_nil, DecUnit.mk.injEq,
        and_true, true_and]
      exact ⟨BitVec.eq_of_toNat_eq (by rw [hcn]; simpa using hc), by simp⟩
    | cons w ws =>
      refine .cons hd (ht.trans (congrArg some (if_neg ?_))) ?_
      · simp only [List.length_cons] at hc; omega
      · have rest := ih
          { d.addToSum v with pbuf := d.pbuf.write d.cnt.toNat v, cnt := d.cnt + 1 } hs he hst (by simp) hl
          (by show (d.cnt + 1).toNat + _ = d.lenAcc.toNat; omega)
        convert rest using 2
        simp only [DecUnit.addToSum, DecUnit.mk.injEq, true_and, sumBytes_cons, hcn]
        exact ⟨by rw [BitVec.add_assoc], rfl⟩

end Sys2Proof.Machine
end

