-- ==== Sys2Proof/Tests/Slice0.lean ====
section
/-! SUPPORT. Tests of the definitions, with expected values from spec/95_test_vectors.md and the examples of
the rules, and one witness for each hypothesis of an obligation. -/

namespace Sys2Proof.Tests

open Sys2Proof Sys2Proof.Machine

/-! ### Small states -/

/-- The reset state of an instance with given parameters. -/
def fresh (capacity : Half) (checksumEn addressEn : Bool) : State :=
  { State.reset with params := ⟨capacity, checksumEn, addressEn⟩ }

/-- A buffer that holds bytes from index 0. -/
def filled (bs : List Byte) : Memory := Memory.writeFrom [] 0 bs

/-- `fresh 8 c a` with its decoder set. -/
def withDec (checksumEn addressEn : Bool) (d : DecUnit) : State :=
  { fresh 8 checksumEn addressEn with dec := d }

/-- A decoder in a parser state, `IN_PROGRESS`, with a declared length and a running sum. -/
def inFrame (st : DecState) (len : Half) (sum : Byte) : DecUnit :=
  { DecUnit.reset with st := st, status := .inProgress, lenAcc := len, csumAcc := sum }

/-- After vector E10: the frame `7E 00 01 80 7D 5E` in OBUF. -/
def afterE10 : State :=
  { fresh 8 true false with
    enc := { obuf := filled [0x7E, 0x00, 0x01, 0x80, 0x7D, 0x5E], olen := 6, encFault := false } }

/-- The encoder disabled, as after vector E20. -/
def afterE20 : State :=
  { fresh 8 false false with enc := { EncUnit.reset with encFault := true } }

/-- After vector D17 (CHECKSUM_ERR), with C = 1. -/
def afterD17 : DecUnit :=
  { st := .err, esc := false, lenAcc := 3, cnt := 3, srcAcc := 0, dstAcc := 0, csumAcc := 0x01,
    status := .checksumErr, pbuf := filled [0x10, 0xEE, 0x00] }

/-- After vector D16 (FINISHED), with C = 1. -/
def afterD16 : DecUnit := { afterD17 with st := .done, status := .finished }

/-- Before the checksum byte of vectors D16 and D17. -/
def beforeChecksum : DecUnit := { afterD17 with st := .checksum, status := .inProgress }

/-- Vector D8 before its last byte: DATA with one byte of two received. -/
def midData : DecUnit := { inFrame .data 2 0x43 with cnt := 1, pbuf := filled [0x41] }

/-! ### Well-formedness -/

/-- R76: the list has LEN bytes. -/
theorem test_assemble_wellFormed :
    (Instr.encAssemble 2 0x0042 0x007E [0x11, 0x22]).wellFormed = true := by decide

/-- R76: a list that is too short, or too long, is refused, and the machine refuses it too. -/
theorem test_assemble_illFormed :
    (Instr.encAssemble 2 0x0042 0x007E [0x11]).wellFormed = false
    ∧ (Instr.encAssemble 2 0x0042 0x007E [0x11, 0x22, 0x33]).wellFormed = false
    ∧ (leftBy (exec (.encAssemble 2 0 0 [0x11]) (fresh 8 false false))).isNone = true := by decide

/-- R74, R76: the decoder refuses a data phase of another length, and one after a word that has none. -/
theorem test_data_phase_refused :
    decode 0x1000000200000000 [0x11] = .error .dataPhase
    ∧ decode 0x2000000000000000 [0x11] = .error .dataPhase := by decide

/-! ### Words written out from R70 to R72 (section 2.8 of the vectors) -/

theorem test_decode_encAssemble :
    decode 0x1000000200420007 [0x11, 0x22] = .ok (.encAssemble 2 0x0042 0x0007 [0x11, 0x22]) := by decide
theorem test_decode_encAssemble_empty :
    decode 0x1000000000000000 [] = .ok (.encAssemble 0 0 0 []) := by decide
theorem test_decode_encReadLen : decode 0x2000000000000000 [] = .ok .encReadLen := by decide
theorem test_decode_encReadByte : decode 0x300000000003FFFF [] = .ok (.encReadByte 262143) := rfl
theorem test_decode_decPushByte : decode 0x400000000000007E [] = .ok (.decPushByte 0x7E) := by decide
theorem test_decode_decClear : decode 0x5000000000000000 [] = .ok .decClear := by decide
theorem test_decode_decReadStatus : decode 0x6000000000000000 [] = .ok .decReadStatus := by decide
theorem test_decode_decReadLen : decode 0x7000000000000000 [] = .ok .decReadLen := by decide
theorem test_decode_decReadSrc : decode 0x8000000000000000 [] = .ok .decReadSrc := by decide
theorem test_decode_decReadDst : decode 0x9000000000000000 [] = .ok .decReadDst := by decide
theorem test_decode_decReadByte : decode 0xA00000000000000A [] = .ok (.decReadByte 10) := by decide

/-- R73: reserved opcodes. -/
theorem test_decode_reserved_opcodes :
    ∀ opc ∈ [0x0, 0xB, 0xC, 0xD, 0xE, 0xF],
      decode (wordOf (BitVec.ofNat 4 opc) 0) [] = .error .reservedOpcode := by decide

/-- R73: reserved bits. -/
theorem test_decode_reserved_bits :
    decode 0x4000000000000100 [] = .error .reservedBits
    ∧ decode 0x5000000000000001 [] = .error .reservedBits
    ∧ decode 0x3000000000040000 [] = .error .reservedBits
    ∧ decode 0x1001000000000000 [] = .error .reservedBits
    ∧ decode 0x6800000000000000 [] = .error .reservedBits
    ∧ decode 0xA000800000000000 [] = .error .reservedBits := by decide

/-- R72: no word is of two rows. -/
theorem test_rows_do_not_overlap :
    opcodeTable.Pairwise fun r q => (r.pattern ^^^ q.pattern) &&& (r.mask &&& q.mask) ≠ 0 := by decide

/-- The table's numbering (log 9): the word is the low 64 bits, the payload the bits above it. -/
theorem test_table_word :
    decodeTableWord 64 0x400000000000007E = some (.decPushByte 0x7E)
    ∧ decodeTableWord 80 0x22111000000200420007 = some (.encAssemble 2 0x0042 0x0007 [0x11, 0x22])
    ∧ decodeTableWord 64 0x1000000200420007 = some (.encAssemble 2 0x0042 0x0007 [0, 0])
    ∧ decodeTableWord 64 0xB000000000000000 = none := by decide

/-- A placed word is what the next step runs, and the first command after reset completes. -/
theorem test_first_command_runs :
    ∀ w ∈ [0x1000000000000000, 0x2000000000000000, 0x400000000000007E, 0x5000000000000000,
        0x6000000000000000, 0x7000000000000000, 0x8000000000000000, 0x9000000000000000],
      completes (step (State.reset.withFetchWord 64 w)) = true := by decide

/-- The assembler's text (R85): P1's first line, a byte list, a comment. -/
theorem test_assembler_line :
    readLine "ENC_ASSEMBLE src=0x0042, dst=0x007E, payload=[7E 01] ; comment".toList
      = some [.instr (.encAssemble 2 0x0042 0x007E [0x7E, 0x01])] := by decide

/-! ### One step of each command -/

/-- E10 (R120's example). -/
theorem test_assemble_E10 :
    exec (.encAssemble 1 0 0 [0x80]) (fresh 8 true false)
      = .next { afterE10 with responses := [⟨true, 6⟩] } := rfl

/-- E20: LEN = CAPACITY + 1. -/
theorem test_assemble_E20 :
    exec (.encAssemble 9 0 0 [0, 0, 0, 0, 0, 0, 0, 0, 0]) (fresh 8 false false)
      = .fault (.encSizeViolation { afterE20 with responses := [⟨false, 1⟩] }) := rfl

/-- R123's example. -/
theorem test_readLen_after_E10 :
    exec .encReadLen afterE10 = .next { afterE10 with responses := [⟨true, 6⟩] } := rfl

/-- E22. -/
theorem test_readLen_E22 :
    exec .encReadLen afterE20 = .fault (.encSizeViolation { afterE20 with responses := [⟨false, 1⟩] }) := rfl

/-- E26: the last byte of the frame. -/
theorem test_readByte_E26_last :
    exec (.encReadByte 5) afterE10 = .next { afterE10 with responses := [⟨true, 0x5E⟩] } := rfl

/-- E26: the first index beyond it. -/
theorem test_readByte_E26_beyond :
    exec (.encReadByte 6) afterE10 = .fault (.accessOutOfRange { afterE10 with responses := [⟨false, 2⟩] }) := rfl

/-- D15, last byte: `20` completes a pair and is the payload byte `00` that finishes the frame. -/
theorem test_push_D15_last :
    exec (.decPushByte 0x20)
        (withDec false false { inFrame .data 2 0x63 with esc := true, cnt := 1, pbuf := filled [0x61] })
      = .next { withDec false false
          { inFrame .data 2 0x63 with st := .done, status := .finished, cnt := 2, pbuf := filled [0x61, 0x00] }
          with responses := [⟨true, 2⟩] } := rfl

/-- D13: DONE absorbs the next frame's delimiter (C1). -/
theorem test_push_D13_absorbed :
    exec (.decPushByte 0x7E) (withDec true false afterD16)
      = .next { withDec true false afterD16 with responses := [⟨true, 2⟩] } := rfl

/-- K1. -/
theorem test_clear_K1 :
    exec .decClear (withDec true false afterD17)
      = .next { withDec true false { DecUnit.reset with pbuf := filled [0x10, 0xEE, 0x00] } with
          responses := [⟨true, 0⟩] } := rfl

/-- K4. -/
theorem test_readStatus_K4 :
    exec .decReadStatus (withDec true false afterD16)
      = .next { withDec true false afterD16 with responses := [⟨true, 2⟩] } := rfl

/-- K10: the oversize declared length after D4. -/
theorem test_readDecLen_K10 :
    exec .decReadLen (withDec false false { inFrame .err 9 0x09 with status := .sizeErr })
      = .next { withDec false false { inFrame .err 9 0x09 with status := .sizeErr } with
          responses := [⟨true, 9⟩] } := rfl

/-- K7: a partial source address. -/
theorem test_readSrc_K7 :
    exec .decReadSrc (withDec false true { inFrame .srcAddrLow 5 0x17 with srcAcc := 0x1200 })
      = .next { withDec false true { inFrame .srcAddrLow 5 0x17 with srcAcc := 0x1200 } with
          responses := [⟨true, 0x1200⟩] } := rfl

/-- R155's example: the destination address of the concrete scenario. -/
theorem test_readDst :
    exec .decReadDst (withDec false true { inFrame .data 5 0xCE with srcAcc := 0x0042, dstAcc := 0x007E })
      = .next { withDec false true { inFrame .data 5 0xCE with srcAcc := 0x0042, dstAcc := 0x007E } with
          responses := [⟨true, 0x007E⟩] } := rfl

/-- K5: a byte of a frame that failed its checksum is readable. -/
theorem test_readPayload_K5 :
    exec (.decReadByte 1) (withDec true false afterD17)
      = .next { withDec true false afterD17 with responses := [⟨true, 0xEE⟩] } := rfl

/-- K4: the index `cnt`. -/
theorem test_readPayload_K4_beyond :
    exec (.decReadByte 3) (withDec true false afterD16)
      = .fault (.accessOutOfRange { withDec true false afterD16 with responses := [⟨false, 2⟩] }) := rfl

/-! ### States that meet the invariant -/

/-- A reset encoder meets its invariant under any parameters. -/
theorem encInv_reset (p : Params) : EncInv p EncUnit.reset where
  buffer := ⟨List.Pairwise.nil, fun _ h => absurd h List.not_mem_nil, Nat.zero_le _,
    fun _ h => absurd h (Nat.not_lt_zero _)⟩
  starts h := absurd rfl h

/-- A reset decoder meets its invariant under any parameters. -/
theorem decInv_reset (p : Params) : DecInv p DecUnit.reset where
  buffer := ⟨List.Pairwise.nil, fun _ h => absurd h List.not_mem_nil, Nat.zero_le _,
    fun _ h => absurd h (Nat.not_lt_zero _)⟩
  phase := ⟨rfl, rfl, rfl, rfl, rfl, rfl⟩
  addresses _ := ⟨rfl, rfl⟩
  sum := by decide

/-- READY, under any parameters. -/
theorem inv_fresh (capacity : Half) (c a : Bool) : (fresh capacity c a).Inv :=
  ⟨encInv_reset _, decInv_reset _⟩

/-- A frame in OBUF. -/
theorem inv_afterE10 : afterE10.Inv where
  enc := ⟨⟨by decide, by decide, by decide, by decide⟩, by decide⟩
  dec := decInv_reset _

/-- DATA. -/
theorem inv_midData : (withDec false false midData).Inv where
  enc := encInv_reset _
  dec := ⟨⟨by decide, by decide, by decide, by decide⟩, ⟨rfl, by decide, by decide⟩, fun _ => ⟨rfl, rfl⟩,
    by decide⟩

/-- CHECKSUM. -/
theorem inv_beforeChecksum : (withDec true false beforeChecksum).Inv where
  enc := encInv_reset _
  dec := ⟨⟨by decide, by decide, by decide, by decide⟩, ⟨rfl, rfl, by decide, rfl⟩, fun _ => ⟨rfl, rfl⟩,
    by decide⟩

/-- DONE of a zero-length frame (D20). -/
theorem inv_afterD20 : (withDec false false { inFrame .done 0 0 with status := .finished }).Inv where
  enc := encInv_reset _
  dec := ⟨⟨by decide, by decide, by decide, by decide⟩, ⟨rfl, rfl, by decide, rfl⟩, fun _ => ⟨rfl, rfl⟩,
    by decide⟩

/-! ### Witnesses: the hypotheses of the obligations can be met

One theorem per clause that has hypotheses, named after the obligation. -/

theorem witness_DecodeOfEncodeIsIdentity :
    (Instr.encAssemble 2 0x7E 0x7D [0x7E, 0x00]).wellFormed = true
    ∧ (Instr.encAssemble 0 0xFFFF 0 []).wellFormed = true
    ∧ (Instr.encReadByte 0x3FFFF).wellFormed = true := by decide

theorem witness_EncodeOfDecodeIsIdentity :
    decode 0x1000000200420007 [0x11, 0x22] = .ok (.encAssemble 2 0x0042 0x0007 [0x11, 0x22])
    ∧ decode 0xA00000000000000A [] = .ok (.decReadByte 10) := by decide

theorem witness_DecoderFollowsOpcodeTable :
    rowOf (.encAssemble 0 0 0 []) ∈ opcodeTable
    ∧ (0x1000000200420007 : CmdWord) &&& (rowOf (.encAssemble 0 0 0 [])).mask
        = (rowOf (.encAssemble 0 0 0 [])).pattern
    ∧ [0x11, 0x22].length = dataLength 0x1000000200420007 := by decide

/-- Both kinds of illegal word, at the first reserved opcode above the legal ones, and a legal word. -/
theorem witness_IllegalWordsAreRefused :
    opcField 0x0000000000000000 = 0x0 ∧ 0xB#4 ≤ opcField 0xB000000000000000
    ∧ (0x4000000000000100 : CmdWord) &&& reservedMask (opcField 0x4000000000000100) ≠ 0
    ∧ (issueFirst 0xB000000000000000 [] (fresh 8 false false)).moves
        = .command 0xB000000000000000 [] :: []
    ∧ ¬ (opcField 0xA00000000003FFFF = 0x0 ∨ 0xB#4 ≤ opcField 0xA00000000003FFFF
        ∨ (0xA00000000003FFFF : CmdWord) &&& reservedMask (opcField 0xA00000000003FFFF) ≠ 0)
    ∧ ([] : List Byte).length = dataLength 0xA00000000003FFFF := by decide

theorem witness_StepRunsTheDecodedCommand :
    (issueFirst 0x5000000000000000 [] (fresh 8 false false)).moves = .command 0x5000000000000000 [] :: []
    ∧ decode 0x5000000000000000 [] = .ok .decClear
    ∧ { fresh 8 false false with moves := [.rst] }.moves = .rst :: []
    ∧ (fresh 8 false false).moves = [] := ⟨rfl, rfl, rfl, rfl⟩

/-- A byte with `esc` = 1 and the escape byte with `esc` = 0. -/
theorem witness_UnescapeFollowsItsRule :
    ((0x5E : Byte) ≠ 0x7E ∧ ((0x5E : Byte) = 0x7D → true = false))
    ∧ (0x7D : Byte) ≠ 0x7E ∧ ((0x7D : Byte) = 0x7D → false = false) := by decide

theorem witness_ChecksumIsComplementOfSum :
    [0x10#8, 0xEE#8].Perm [0xEE#8, 0x10#8] ∧ (fresh 8 true false).params.addressEn = false :=
  ⟨List.Perm.swap _ _ _, rfl⟩

theorem witness_FrameBytesSumToAllOnes :
    (fresh 8 true true).params.checksumEn = true
    ∧ 1 < [0x10#8, 0xEE#8].length ∧ [0x10#8, 0xEE#8][1]? ≠ some 0xEF := by decide

/-- The boundary LEN = CAPACITY. -/
theorem witness_WireLengthIsBounded :
    [0x7E#8].length = (1 : Half).toNat ∧ (1 : Half) ≤ (fresh 1 true true).params.capacity := by decide

/-- The three outcomes at LEN = 9 and LEN = 8 with CAPACITY = 8, and the parameter forms of the corner cases. -/
theorem witness_AssembleWritesTheFrame :
    (List.replicate 9 0#8).length = (9 : Half).toNat ∧ afterE20.enc.encFault = true
    ∧ (fresh 8 false false).enc.encFault = false ∧ (fresh 8 false false).params.capacity < 9
    ∧ (List.replicate 8 0#8).length = (8 : Half).toNat ∧ (8 : Half) ≤ (fresh 8 false false).params.capacity
    ∧ (fresh 8 false false).params.addressEn = false ∧ (fresh 8 false false).params.checksumEn = false
    ∧ (fresh 8 true false).params.addressEn = false ∧ (fresh 8 true false).params.checksumEn = true := by
  decide

theorem witness_OnlyAssembleWritesObuf :
    ∃ t, exec (.encAssemble 1 0 0 [0x80]) (fresh 8 true false) = .next t
      ∧ leftBy (exec (.encAssemble 1 0 0 [0x80]) (fresh 8 true false)) = some t
      ∧ t.enc.obuf ≠ (fresh 8 true false).enc.obuf :=
  ⟨_, test_assemble_E10, by rw [test_assemble_E10]; rfl, by decide⟩

/-- Two encoders of one configuration that held different frames. -/
theorem witness_AssembleForgetsEarlierFrames :
    (fresh 8 true false).params = afterE10.params
    ∧ completes (exec (.encAssemble 0 0 0 []) (fresh 8 true false)) = true
    ∧ completes (exec (.encAssemble 0 0 0 []) afterE10) = true := by decide

theorem witness_AssembleChangesNothingElse :
    completes (exec (.encAssemble 0 0 0 []) afterE10) = true := by decide

/-- Both causes of the violation, the two states of the flag across a reset, and the flag's setting. -/
theorem witness_SizeViolationIsSticky :
    (List.replicate 9 0#8).length = (9 : Half).toNat
    ∧ (fresh 8 false false).params.capacity < 9 ∧ afterE20.enc.encFault = true
    ∧ (leftBy (step { afterE20 with moves := [.rst] })).map (fun t => t.enc.encFault) = some false
    ∧ (leftBy (exec (.encAssemble 9 0 0 (List.replicate 9 0)) (fresh 8 false false))).map
        (fun t => t.enc.encFault) = some true := by decide

theorem witness_ReadLenAnswersOlen :
    (fresh 1 true false).enc.encFault = false ∧ afterE20.enc.encFault = true
    ∧ 1 ≤ (fresh 1 true false).params.capacity ∧ (fresh 1 true false).params.checksumEn = true
    ∧ (fresh 1 true false).params.addressEn = false := by decide

/-- The indices `olen - 1` and `olen`, and index 0. -/
theorem witness_ReadByteAnswersObuf :
    afterE20.enc.encFault = true ∧ afterE10.Inv ∧ afterE10.enc.encFault = false
    ∧ afterE10.enc.olen ≤ 6 ∧ 5 < afterE10.enc.olen ∧ 0 < afterE10.enc.olen
    ∧ completes (exec (.encAssemble 0 0 0 []) afterE10) = true :=
  ⟨rfl, inv_afterE10, rfl, by decide, by decide, by decide, by decide⟩

theorem witness_DoneAndErrAbsorbBytes :
    (withDec true false afterD16).dec.st = .done ∧ (withDec true false afterD17).dec.st = .err
    ∧ (leftBy (step (issueFirst 0x5000000000000000 [] (withDec true false afterD17)))).map
        (fun t => t.dec.st) = some .ready := by decide

/-- The delimiter, and the escape byte with `esc` = 1 (D8, D11). -/
theorem witness_SpecialCharacterEntersErr :
    midFrame (withDec false false midData).dec.st = true
    ∧ midFrame (withDec false false { inFrame .data 2 2 with esc := true }).dec.st = true
    ∧ (withDec false false { inFrame .data 2 2 with esc := true }).dec.esc = true := by decide

theorem witness_ReadyWaitsForDelimiter :
    (fresh 8 false false).Inv ∧ (fresh 8 false false).dec.st = .ready ∧ (0x7D : Byte) ≠ 0x7E :=
  ⟨inv_fresh 8 false false, rfl, by decide⟩

theorem witness_EscapeByteIsConsumed :
    midFrame (withDec false false midData).dec.st = true ∧ (withDec false false midData).dec.esc = false := by
  decide

/-- Each field state, with a byte of class OTHER. -/
theorem witness_FieldStatesAccumulate :
    (∀ st ∈ [DecState.sizeHigh, .sizeLow, .srcAddrHigh, .srcAddrLow, .dstAddrHigh, .dstAddrLow],
      (withDec false true (inFrame st 0 0)).dec.st = st ∧ (withDec false true (inFrame st 0 0)).dec.esc = false)
    ∧ (0x5E : Byte) ≠ 0x7E ∧ (0x5E : Byte) ≠ 0x7D := by decide

/-- The lengths 9 and 8 at CAPACITY = 8 (D4, D5). -/
theorem witness_LengthAboveCapacityIsSizeErr :
    (withDec false false (inFrame .sizeLow 0 0)).dec.st = .sizeLow
    ∧ (withDec false false (inFrame .sizeLow 0 0)).params.capacity < (0 : Half) + (logicalOf false 9).setWidth 16
    ∧ (0 : Half) + (logicalOf false 8).setWidth 16
        ≤ (withDec false false (inFrame .sizeLow 0 0)).params.capacity := by decide

/-- The three places the payload is entered from, with lengths 0 and 8. -/
theorem witness_PayloadIsEnteredByLength :
    (withDec false false (inFrame .sizeLow 0 0)).dec.st = .sizeLow
    ∧ (withDec false false (inFrame .sizeLow 0 0)).params.addressEn = false
    ∧ (0 : Half) + (logicalOf false 0).setWidth 16
        ≤ (withDec false false (inFrame .sizeLow 0 0)).params.capacity
    ∧ (withDec false true (inFrame .dstAddrLow 8 0)).dec.st = .dstAddrLow
    ∧ (withDec false true (inFrame .sizeLow 0 0)).params.addressEn = true
    ∧ (0 : Half) + (logicalOf false 8).setWidth 16
        ≤ (withDec false true (inFrame .sizeLow 0 0)).params.capacity := by decide

/-- The last byte of PBUF (`cnt` = CAPACITY - 1), and a byte that changes PBUF. -/
theorem witness_DataBytesLandAtCnt :
    (withDec false false midData).dec.st = .data ∧ (withDec false false midData).dec.esc = false
    ∧ (withDec false false { inFrame .data 8 0 with cnt := 7 }).dec.cnt
        < (withDec false false { inFrame .data 8 0 with cnt := 7 }).params.capacity
    ∧ (leftBy (exec (.decPushByte 0x42) (withDec false false midData))).map (fun t => t.dec.pbuf)
        = some (filled [0x41, 0x42]) := by decide

/-- Both outcomes of the comparison (D16, D17). -/
theorem witness_ChecksumByteDecidesTheFrame :
    (withDec true false beforeChecksum).Inv ∧ (withDec true false beforeChecksum).dec.st = .checksum
    ∧ (withDec true false beforeChecksum).dec.esc = false
    ∧ logicalOf false 0xFE = 0xFF - (withDec true false beforeChecksum).dec.csumAcc
    ∧ logicalOf false 0xFF ≠ 0xFF - (withDec true false beforeChecksum).dec.csumAcc :=
  ⟨inv_beforeChecksum, rfl, rfl, rfl, by decide⟩

theorem witness_PushByteAlwaysCompletes : (withDec false false midData).Inv := inv_midData

theorem witness_PushByteChangesNothingElse :
    completes (exec (.decPushByte 0x42) (withDec false false midData)) = true
    ∧ completes (exec (.decPushByte 0x42) (withDec false true (inFrame .sizeHigh 0 0))) = true := by decide

theorem witness_AccessorsAnswerTheRegisters :
    (fresh 8 false false).Inv ∧ (fresh 8 false false).params.addressEn = false
    ∧ (fresh 8 false false).dec.st = .ready :=
  ⟨inv_fresh 8 false false, rfl, rfl⟩

/-- The indices `cnt - 1` and `cnt`, READY, and a zero-length frame. -/
theorem witness_ReadByteAnswersPbuf :
    (withDec false false midData).Inv
    ∧ (0 : Index).toNat < (withDec false false midData).dec.cnt.toNat
    ∧ (withDec false false midData).dec.cnt.toNat ≤ (1 : Index).toNat
    ∧ (fresh 8 false false).Inv ∧ (fresh 8 false false).dec.st = .ready
    ∧ (withDec false false { inFrame .done 0 0 with status := .finished }).Inv
    ∧ (withDec false false { inFrame .done 0 0 with status := .finished }).dec.st = .done
    ∧ (withDec false false { inFrame .done 0 0 with status := .finished }).dec.lenAcc = 0 :=
  ⟨inv_midData, by decide, by decide, inv_fresh 8 false false, rfl, inv_afterD20, rfl, rfl⟩

/-- A read that answers and a read that faults. -/
theorem witness_ReadsHaveNoSideEffects :
    isReadCommand (.encReadByte 5) = true
    ∧ (leftBy (exec (.encReadByte 5) afterE10)).isSome = true
    ∧ (leftBy (exec (.encReadByte 6) afterE10)).isSome = true := by decide

theorem witness_OutOfRangeReadsFault :
    afterE10.enc.encFault = false ∧ afterE10.enc.olen ≤ 6
    ∧ (withDec true false afterD16).dec.cnt.toNat ≤ (3 : Index).toNat
    ∧ afterE10.Inv
    ∧ exec (.encReadByte 6) afterE10
        = .fault (.accessOutOfRange { afterE10 with responses := [⟨false, 2⟩] }) :=
  ⟨rfl, by decide, by decide, inv_afterE10, test_readByte_E26_beyond⟩

theorem witness_ResetGivesResetValues :
    { withDec true false afterD17 with moves := [.rst] }.moves = .rst :: [] := rfl

/-- A step that completes and a step that faults, from states of the invariant. -/
theorem witness_StepKeepsTheInvariant :
    (fresh 8 false false).Inv ∧ (leftBy (step (fresh 8 false false))).isSome = true
    ∧ { afterE10 with moves := [.command 0x3000000000000006 []] }.Inv
    ∧ (leftBy (step { afterE10 with moves := [.command 0x3000000000000006 []] })).isSome = true :=
  ⟨inv_fresh 8 false false, by decide, ⟨inv_afterE10.enc, inv_afterE10.dec⟩, by decide⟩

theorem witness_StatesFollowTheParameters :
    (withDec true false beforeChecksum).Inv ∧ (withDec true false beforeChecksum).dec.st = .checksum :=
  ⟨inv_beforeChecksum, rfl⟩

theorem witness_ParametersNeverChange :
    (leftBy (step { afterE10 with moves := [.rst] })).isSome = true
    ∧ (leftBy (exec .decClear afterE10)).isSome = true := by decide

theorem witness_UnitsDoNotInterfere :
    isEncCommand .encReadLen = true ∧ (leftBy (exec .encReadLen afterE20)).isSome = true
    ∧ isEncCommand .decClear = false ∧ (leftBy (exec .decClear afterE20)).isSome = true := by decide

theorem witness_CommandsOfTheTwoUnitsCommute :
    isEncCommand (.encAssemble 0 0 0 []) = true ∧ isEncCommand (.decPushByte 0x7E) = false
    ∧ completes (execAll [.encAssemble 0 0 0 [], .decPushByte 0x7E] (fresh 8 false false)) = true := by decide

/-- A state of each kind, a step that leaves it as it is, and a byte that is no delimiter. -/
theorem witness_OnlyClearOrResetRecovers :
    (withDec true false afterD17).dec.st = .err ∧ (withDec true false afterD16).dec.st = .done
    ∧ (leftBy (step (issueFirst 0x400000000000007E [] (withDec true false afterD17)))).isSome = true
    ∧ (0x7D : Byte) ≠ 0x7E := by decide

theorem witness_ClearIsIndistinguishableFromReset :
    ∀ i ∈ [Instr.decPushByte 0x7E, .decReadByte 0, .decReadStatus, .decClear], isEncCommand i = false := by
  decide

theorem witness_OversizeFrameIsRejected :
    (fresh 8 false false).Inv ∧ (fresh 8 false false).dec.st = .ready
    ∧ (fresh 8 false false).params.capacity < 9 :=
  ⟨inv_fresh 8 false false, rfl, by decide⟩

/-- LEN = CAPACITY, with both options and bytes that are escaped. -/
theorem witness_EveryFrameDecodesToItsPayload :
    (fresh 2 true true).Inv ∧ (fresh 2 true true).dec.st = .ready
    ∧ [0x7E#8, 0x7D#8].length = (2 : Half).toNat ∧ (2 : Half) ≤ (fresh 2 true true).params.capacity
    ∧ (fresh 2 true true).params.addressEn = true ∧ (fresh 2 true false).params.addressEn = false :=
  ⟨inv_fresh 2 true true, rfl, rfl, by decide, rfl, rfl⟩

theorem witness_LoopbackDeliversThePayload :
    (fresh 2 true true).Inv ∧ (fresh 2 true true).dec.st = .ready
    ∧ completes (exec (.encAssemble 2 0x7E 0x7D [0x7E, 0x7D]) (fresh 2 true true)) = true
    ∧ (fresh 2 true true).params.addressEn = true :=
  ⟨inv_fresh 2 true true, rfl, by decide, rfl⟩

/-- S1: the payload `10 EE 00` with its byte 0 changed to `11`. -/
theorem witness_OneChangedPayloadByteIsDetected :
    (fresh 8 true false).Inv ∧ (fresh 8 true false).dec.st = .ready
    ∧ (fresh 8 true false).params.checksumEn = true
    ∧ [0x10#8, 0xEE#8, 0x00#8].length = (3 : Half).toNat ∧ (3 : Half) ≤ (fresh 8 true false).params.capacity
    ∧ 0 < [0x10#8, 0xEE#8, 0x00#8].length ∧ [0x10#8, 0xEE#8, 0x00#8][0]? ≠ some 0x11 :=
  ⟨inv_fresh 8 true false, rfl, rfl, rfl, by decide, by decide, by decide⟩

/-- Two decoders with different stale bytes in PBUF, a byte in READY, and a read that faults on both. -/
theorem witness_DecoderCommandsKeepTheView :
    isEncCommand (.decPushByte 0x7E) = false ∧ isEncCommand (.decReadByte 0) = false
    ∧ (withDec true false afterD17.clear).params = (fresh 8 true false).params
    ∧ SameView (withDec true false afterD17.clear).dec (fresh 8 true false).dec
    ∧ (withDec true false afterD17.clear).dec.pbuf ≠ (fresh 8 true false).dec.pbuf
    ∧ (leftBy (exec (.decPushByte 0x7E) (withDec true false afterD17.clear))).isSome = true
    ∧ (leftBy (exec (.decReadByte 0) (withDec true false afterD17.clear))).isSome = true :=
  ⟨rfl, rfl, rfl, ⟨rfl, fun i h => absurd h (Nat.not_lt_zero i)⟩, by decide, by decide, by decide⟩

/-- S7 and S8: the source's low byte `42` changed to `43`, and the destination's high byte `00` to `80`. -/
theorem witness_OneChangedAddressByteIsDetected :
    (fresh 8 true true).Inv ∧ (fresh 8 true true).dec.st = .ready
    ∧ (fresh 8 true true).params.checksumEn = true ∧ (fresh 8 true true).params.addressEn = true
    ∧ [0x55#8].length = (1 : Half).toNat ∧ (1 : Half) ≤ (fresh 8 true true).params.capacity
    ∧ 1 < 4 ∧ (fieldBytes 0x0042 ++ fieldBytes 0x0007)[1]? ≠ some 0x43
    ∧ 2 < 4 ∧ (fieldBytes 0x0042 ++ fieldBytes 0x0007)[2]? ≠ some 0x80 :=
  ⟨inv_fresh 8 true true, rfl, rfl, rfl, rfl, by decide, by decide, by decide, by decide, by decide⟩

end Sys2Proof.Tests
end

section
/-! The two statements of spec/10_state.md: what a command leaves of the whole state, the parameters (R20) and
the encoder's fault flag (R24, R185). -/

namespace Sys2Proof.Machine

/-! ### What each command can leave -/

/-- A buffer read leaves the state as it was but for its answer (R60). -/
theorem leftBy_respondElement {m : Memory} {bound : Nat} {idx : Index} {s t : State}
    (h : leftBy (respondElement m bound idx s) = some t) : ∃ r, t = s.answer r := by
  obtain ⟨v, e, -⟩ | ⟨e, -⟩ := respondElement_cases m bound idx s <;> rw [e] at h
  · exact ⟨_, (Option.some.inj h).symm⟩
  · exact ⟨_, (Option.some.inj h).symm⟩

/-- An encoder command that only answers, behind the check of the fault flag, still only answers: the fault
sets a flag that is already set (R24). -/
theorem leftBy_whenEncoderEnabled_of_answers {o : Host.Outcome State Fault Refusal} {s t : State}
    (ho : leftBy o = some t → ∃ r, t = s.answer r) (h : leftBy (whenEncoderEnabled s o) = some t) :
    ∃ r, t = s.answer r := by
  cases hf : s.enc.encFault with
  | false => exact ho (whenEncoderEnabled_of_clear hf o ▸ h)
  | true =>
    rw [whenEncoderEnabled_of_set hf, raiseEncSizeViolation_of_set hf] at h
    exact ⟨_, (Option.some.inj h).symm⟩

/-- The seven read commands only answer, whatever their outcome (R60). -/
theorem leftBy_exec_of_isReadCommand {i : Instr} {s t : State} (hi : isReadCommand i = true)
    (h : leftBy (exec i s) = some t) : ∃ r, t = s.answer r := by
  cases i with
  | encAssemble | decPushByte | decClear => cases hi
  | encReadLen =>
    exact leftBy_whenEncoderEnabled_of_answers (o := respond s.enc.olen s)
      (fun ho => ⟨_, (Option.some.inj ho).symm⟩) h
  | encReadByte idx => exact leftBy_whenEncoderEnabled_of_answers leftBy_respondElement h
  | decReadStatus | decReadLen | decReadSrc | decReadDst => exact ⟨_, (Option.some.inj h).symm⟩
  | decReadByte idx => exact leftBy_respondElement h

/-- DEC_PUSH_BYTE, completed or stopped, changes the decoder and the responses only. -/
theorem leftBy_execDecPushByte {b : Byte} {s t : State} (h : leftBy (execDecPushByte b s) = some t) :
    ∃ d rs, t = { s with dec := d, responses := rs } := by
  cases hp : s.dec.push s.params b with
  | none =>
    simp only [execDecPushByte, hp] at h
    exact ⟨s.dec, s.responses, (Option.some.inj h).symm⟩
  | some dr =>
    rw [execDecPushByte_of_push hp] at h
    exact ⟨dr.1, _, (Option.some.inj h).symm⟩

/-- ENC_ASSEMBLE that reached the machine has raised EncSizeViolation or has written its frame (R120, R185). -/
theorem leftBy_execEncAssemble {len src dst : Half} {payload : List Byte} {s t : State}
    (h : leftBy (execEncAssemble len src dst payload s) = some t) :
    ((s.enc.encFault = true ∨ s.params.capacity < len)
        ∧ execEncAssemble len src dst payload s = .fault (.encSizeViolation t)
        ∧ t = { s with enc := { s.enc with encFault := true } }.answer ⟨false, 1⟩)
      ∨ (s.enc.encFault = false ∧ len ≤ s.params.capacity
        ∧ ∃ r, t = { s with enc := s.enc.emit (frameBytes s.params len src dst payload) }.answer r) := by
  obtain ⟨-, e⟩ | ⟨-, hc, e⟩ | ⟨-, hf, hl, e⟩ := execEncAssemble_cases len src dst payload s <;>
    rw [e] at h
  · cases h
  · cases h
    exact .inl ⟨hc, e, rfl⟩
  · exact .inr ⟨hf, hl, _, (Option.some.inj h).symm⟩

/-- What a command that reached the machine has left, whatever its outcome: an answer only; a changed decoder;
or what ENC_ASSEMBLE leaves, the fault or the frame. -/
theorem leftBy_exec_cases {i : Instr} {s t : State} (h : leftBy (exec i s) = some t) :
    (∃ r, t = s.answer r)
      ∨ (isEncCommand i = false ∧ ∃ d rs, t = { s with dec := d, responses := rs })
      ∨ (∃ len src dst payload, i = .encAssemble len src dst payload
        ∧ (s.enc.encFault = true ∨ s.params.capacity < len)
        ∧ exec i s = .fault (.encSizeViolation t)
        ∧ t = { s with enc := { s.enc with encFault := true } }.answer ⟨false, 1⟩)
      ∨ (∃ len src dst payload r, i = .encAssemble len src dst payload
        ∧ s.enc.encFault = false ∧ len ≤ s.params.capacity
        ∧ t = { s with enc := s.enc.emit (frameBytes s.params len src dst payload) }.answer r) := by
  cases i with
  | encAssemble len src dst payload =>
    obtain ⟨hc, e, ht⟩ | ⟨hf, hl, r, ht⟩ := leftBy_execEncAssemble h
    · exact .inr (.inr (.inl ⟨len, src, dst, payload, rfl, hc, e, ht⟩))
    · exact .inr (.inr (.inr ⟨len, src, dst, payload, r, rfl, hf, hl, ht⟩))
  | decPushByte b => exact .inr (.inl ⟨rfl, leftBy_execDecPushByte h⟩)
  | decClear => exact .inr (.inl ⟨rfl, s.dec.clear, _, (Option.some.inj h).symm⟩)
  | encReadLen | encReadByte | decReadStatus | decReadLen | decReadSrc | decReadDst | decReadByte =>
    exact .inl (leftBy_exec_of_isReadCommand rfl h)

/-! ### The parameters (R20) -/

/-- No command writes the parameters. -/
theorem params_of_leftBy_exec {i : Instr} {s t : State} (h : leftBy (exec i s) = some t) :
    t.params = s.params := by
  obtain ⟨r, rfl⟩ | ⟨-, d, rs, rfl⟩ | ⟨_, _, _, _, -, -, -, rfl⟩ | ⟨_, _, _, _, _, -, -, -, rfl⟩ :=
    leftBy_exec_cases h <;> rfl

/-- No step writes the parameters, reset included. -/
theorem params_of_leftBy_step {s t : State} (h : leftBy (step s) = some t) : t.params = s.params := by
  obtain ⟨-, e⟩ | ⟨rest, -, e⟩ | ⟨_, _, rest, i, -, -, e⟩ | ⟨_, _, rest, _, -, -, e⟩ := step_cases s <;>
    rw [e] at h
  · rw [← Option.some.inj h]
  · rw [← Option.some.inj h, State.applyReset_params]
  · exact params_of_leftBy_exec (s := { s with moves := rest }) h
  · rw [leftBy_refuseCommand h, State.answer_params]

/-- Settles O42: by what a command can leave, and by the move a step takes. -/
theorem parametersNeverChange : Obligations.ParametersNeverChange :=
  ⟨fun _ _ => params_of_leftBy_step, fun _ _ _ => params_of_leftBy_exec⟩

/-! ### The encoder's fault flag (R24, R185) -/

/-- ENC_ASSEMBLE with the flag set or a length above CAPACITY ends in EncSizeViolation. -/
theorem execEncAssemble_of_violation {len src dst : Half} {payload : List Byte} {s : State}
    (hl : payload.length = len.toNat) (hc : s.enc.encFault = true ∨ s.params.capacity < len) :
    execEncAssemble len src dst payload s = raiseEncSizeViolation s := by
  obtain ⟨hn, -⟩ | ⟨-, -, e⟩ | ⟨-, hf, hle, -⟩ := execEncAssemble_cases len src dst payload s
  · exact absurd hl hn
  · exact e
  · rcases hc with hs | hlt
    · simp [hf] at hs
    · exact absurd hlt (BitVec.not_lt.mpr hle)

/-- No command clears the fault flag. -/
theorem encFault_of_leftBy_exec {i : Instr} {s t : State} (h : leftBy (exec i s) = some t)
    (hs : s.enc.encFault = true) : t.enc.encFault = true := by
  obtain ⟨r, rfl⟩ | ⟨-, d, rs, rfl⟩ | ⟨_, _, _, _, -, -, -, rfl⟩ | ⟨_, _, _, _, _, -, hf, -, -⟩ :=
    leftBy_exec_cases h
  · exact hs
  · exact hs
  · rfl
  · simp [hs] at hf

/-- A step that clears the fault flag takes `rst`. -/
theorem head_moves_of_step_clears_encFault {s t : State} (h : leftBy (step s) = some t)
    (hs : s.enc.encFault = true) (ht : t.enc.encFault = false) : s.moves.head? = some .rst := by
  obtain ⟨-, e⟩ | ⟨rest, hm, -⟩ | ⟨_, _, rest, i, -, -, e⟩ | ⟨_, _, rest, _, -, -, e⟩ := step_cases s
  · rw [e, leftBy_next] at h
    cases h
    simp [hs] at ht
  · rw [hm, List.head?_cons]
  · rw [e] at h
    simp [encFault_of_leftBy_exec h hs] at ht
  · rw [e] at h
    simp [leftBy_refuseCommand h, hs] at ht

/-- A command that sets the fault flag is an oversize ENC_ASSEMBLE that ended in the fault. -/
theorem exec_of_sets_encFault {i : Instr} {s t : State} (h : leftBy (exec i s) = some t)
    (hs : s.enc.encFault = false) (ht : t.enc.encFault = true) :
    ∃ len src dst payload, i = .encAssemble len src dst payload ∧ s.params.capacity < len
      ∧ exec i s = .fault (.encSizeViolation t) := by
  obtain ⟨r, rfl⟩ | ⟨-, d, rs, rfl⟩ | ⟨len, src, dst, payload, hi, hc, e, -⟩ |
    ⟨_, _, _, _, _, -, -, -, rfl⟩ := leftBy_exec_cases h
  · simp [hs] at ht
  · simp [hs] at ht
  · exact ⟨len, src, dst, payload, hi, hc.resolve_left (by simp [hs]), e⟩
  · simp [hs] at ht

/-- Settles O19: ENC_ASSEMBLE by its outcomes, the reads by the check of the flag, and the two ways the flag
changes by what a command or a step can leave. -/
theorem sizeViolationIsSticky : Obligations.SizeViolationIsSticky := by
  refine ⟨fun s len src dst payload hl hc => execEncAssemble_of_violation hl hc, fun s idx hf => ?_,
    fun _ _ => head_moves_of_step_clears_encFault, fun _ _ _ => exec_of_sets_encFault⟩
  have faults (o) : whenEncoderEnabled s o = .fault (.encSizeViolation (s.answer ⟨false, 1⟩)) :=
    (whenEncoderEnabled_of_set hf o).trans (raiseEncSizeViolation_of_set hf)
  exact ⟨faults _, faults _⟩

end Sys2Proof.Machine
end

section
/-! The statements of spec/20_memory.md: the wire form of a frame (R54, R78, R79), the two buffers and what
writes them (R51, R52), and the reads (R60). -/

namespace Sys2Proof.Machine

/-! ### The wire bytes of a frame (R54, R78 to R80) -/

/-- No escaped byte is the delimiter (R100). -/
theorem flag_notMem_escapeByte (b : Byte) : (0x7E : Byte) ∉ escapeByte b := by
  obtain ⟨-, e⟩ | ⟨-, e⟩ | ⟨h, -, e⟩ := escapeByte_cases b <;> rw [e]
  · decide
  · decide
  · simpa using h.symm

/-- Escaped bytes in a row hold no delimiter, so a frame's only one is its first byte. -/
theorem flag_notMem_flatMap_escapeByte (bs : List Byte) : (0x7E : Byte) ∉ bs.flatMap escapeByte := by
  intro h
  obtain ⟨b, -, hb⟩ := List.mem_flatMap.mp h
  exact flag_notMem_escapeByte b hb

/-- A 16-bit field on the wire, high byte first (R54). -/
theorem flatMap_escapeByte_fieldBytes (v : Half) :
    (fieldBytes v).flatMap escapeByte = escapeByte (hiByte v) ++ escapeByte (loByte v) := by
  simp [fieldBytes]

/-- The number of logical bytes after the delimiter. -/
theorem length_logicalBytes (p : Params) (len src dst : Half) (payload : List Byte) :
    (logicalBytes p len src dst payload).length
      = 2 + 4 * p.addressEn.toNat + payload.length + p.checksumEn.toNat := by
  cases ha : p.addressEn <;> cases hc : p.checksumEn <;>
    simp [logicalBytes, fieldBytes, ha, hc] <;> omega

/-- A frame's wire length: the delimiter, and the width of each logical byte (R80). -/
theorem length_frameBytes (p : Params) (len src dst : Half) (payload : List Byte) :
    (frameBytes p len src dst payload).length
      = 1 + ((logicalBytes p len src dst payload).map wireWidth).sum := by
  simp [frameBytes, List.length_flatMap, length_escapeByte, Nat.add_comm]

/-- A logical byte takes one or two wire bytes (R80). -/
theorem wireWidth_le_two (b : Byte) : wireWidth b ≤ 2 := by
  unfold wireWidth; split <;> omega

/-- A frame's wire length is at most one more than twice its logical bytes. -/
theorem length_frameBytes_le (p : Params) (len src dst : Half) (payload : List Byte) :
    (frameBytes p len src dst payload).length
      ≤ 1 + 2 * (2 + 4 * p.addressEn.toNat + payload.length + p.checksumEn.toNat) := by
  have h := List.sum_le_card_nsmul ((logicalBytes p len src dst payload).map wireWidth) 2
    (List.forall_mem_map.mpr fun b _ => wireWidth_le_two b)
  rw [List.length_map, length_logicalBytes, smul_eq_mul] at h
  rw [length_frameBytes]
  omega

/-- The length of a frame whose payload has LEN bytes fits in `olen` (R23). -/
theorem toNat_ofNat_length_frameBytes (p : Params) {len : Half} (src dst : Half) {payload : List Byte}
    (h : payload.length = len.toNat) :
    (BitVec.ofNat 18 (frameBytes p len src dst payload).length).toNat
      = (frameBytes p len src dst payload).length := by
  have hf := length_frameBytes_le p len src dst payload
  have hl := len.isLt
  have ha := p.addressEn.toNat_le
  have hc := p.checksumEn.toNat_le
  rw [BitVec.toNat_ofNat, Nat.mod_eq_of_lt (by omega)]

/-- Settles O13: the escaped logical bytes taken field by field, and no delimiter among them. -/
theorem frameHasItsFieldsInOrder : Obligations.FrameHasItsFieldsInOrder := by
  intro p len src dst payload
  refine ⟨?_, rfl, flag_notMem_flatMap_escapeByte _⟩
  simp only [frameBytes, logicalBytes, List.flatMap_append, flatMap_escapeByte_fieldBytes]
  cases p.addressEn <;> cases p.checksumEn <;>
    simp [flatMap_escapeByte_fieldBytes, hiByte, loByte]

/-! ### OBUF (R51) -/

/-- A completed ENC_ASSEMBLE has a payload of LEN bytes and leaves the encoder with its frame. -/
theorem enc_of_execEncAssemble_next {len src dst : Half} {payload : List Byte} {s t : State}
    (h : execEncAssemble len src dst payload s = .next t) :
    payload.length = len.toNat ∧ t.enc = s.enc.emit (frameBytes s.params len src dst payload) := by
  obtain ⟨-, e⟩ | ⟨-, -, e⟩ | ⟨hl, -, -, e⟩ := execEncAssemble_cases len src dst payload s <;>
    rw [e] at h <;> cases h
  exact ⟨hl, rfl⟩

/-- A frame in OBUF reads back below `olen`, and the elements above are what they were. -/
theorem read_obuf_emit {p : Params} {len src dst : Half} {payload : List Byte} (e : EncUnit)
    (hl : payload.length = len.toNat) (i : Nat) :
    (e.emit (frameBytes p len src dst payload)).obuf.read i
      = if i < (e.emit (frameBytes p len src dst payload)).olen.toNat
        then (frameBytes p len src dst payload)[i]? else e.obuf.read i := by
  simp [Memory.read_writeFrom, toNat_ofNat_length_frameBytes p src dst hl]

/-- ENC_ASSEMBLE that reached the machine completes if the flag is clear and LEN within CAPACITY (R120). -/
theorem completes_execEncAssemble {len src dst : Half} {payload : List Byte} {s t : State}
    (h : leftBy (execEncAssemble len src dst payload s) = some t) (hf : s.enc.encFault = false)
    (hl : len ≤ s.params.capacity) : completes (execEncAssemble len src dst payload s) = true := by
  obtain ⟨-, e⟩ | ⟨-, hs | hlt, -⟩ | ⟨-, -, -, e⟩ := execEncAssemble_cases len src dst payload s
  · rw [e] at h; cases h
  · simp [hf] at hs
  · exact absurd hlt (BitVec.not_lt.mpr hl)
  · rw [e]; rfl

/-- A command that leaves OBUF different is an ENC_ASSEMBLE that completed. -/
theorem exec_of_writes_obuf {i : Instr} {s t : State} (h : leftBy (exec i s) = some t)
    (hw : t.enc.obuf ≠ s.enc.obuf) :
    (∃ len src dst payload, i = .encAssemble len src dst payload) ∧ completes (exec i s) = true := by
  obtain ⟨r, rfl⟩ | ⟨-, d, rs, rfl⟩ | ⟨_, _, _, _, -, -, -, rfl⟩ |
    ⟨len, src, dst, payload, r, rfl, hf, hl, -⟩ := leftBy_exec_cases h
  · exact absurd rfl hw
  · exact absurd rfl hw
  · exact absurd rfl hw
  · exact ⟨⟨len, src, dst, payload, rfl⟩, completes_execEncAssemble h hf hl⟩

/-- Settles O16: the run of writes of `emit`, whose length `olen` holds, and what each command can leave. -/
theorem onlyAssembleWritesObuf : Obligations.OnlyAssembleWritesObuf := by
  refine ⟨fun s t len src dst payload h => ?_, fun _ _ _ => exec_of_writes_obuf⟩
  obtain ⟨hl, ht⟩ := enc_of_execEncAssemble_next h
  rw [ht]
  refine ⟨fun i hi => ?_, fun i hi => ?_⟩
  · rw [read_obuf_emit s.enc hl i, if_pos hi]
    rw [EncUnit.emit_olen, toNat_ofNat_length_frameBytes _ _ _ hl] at hi
    exact ⟨rfl, by rw [List.getElem?_eq_getElem hi]; rfl⟩
  · rw [read_obuf_emit s.enc hl i, if_neg (Nat.not_lt.mpr hi)]

/-! ### PBUF (R52, R147) -/

/-- A logical byte in DATA is a payload byte (R140). -/
theorem DecUnit.takeLogical_of_data {p : Params} {v : Byte} {d : DecUnit} (h : d.st = .data) :
    DecUnit.takeLogical p v d = d.takeData p v := by
  simp only [DecUnit.takeLogical, h]

/-- A byte in READY leaves PBUF, whatever `esc` is. -/
theorem DecUnit.pbuf_of_push_ready {p : Params} {b : Byte} {d d' : DecUnit} {r : Status}
    (hr : d.st = .ready) (h : d.push p b = some (d', r)) : d'.pbuf = d.pbuf := by
  simp only [DecUnit.push, hr, reduceCtorEq, or_self, if_false, if_true] at h
  split at h
  · cases h; rfl
  · split at h <;> cases h <;> rfl

/-- A byte that leaves PBUF different was taken in DATA. -/
theorem DecUnit.st_of_push_writes_pbuf {p : Params} {b : Byte} {d d' : DecUnit} {r : Status}
    (h : d.push p b = some (d', r)) (hw : d'.pbuf ≠ d.pbuf) : d.st = .data := by
  obtain ⟨hr, -⟩ | ⟨-, rfl, -⟩ | ⟨-, -, -, rfl⟩ | ⟨-, -, rfl⟩ | ⟨-, -, -, -, rfl⟩ | ⟨-, -, -, -, hd⟩ :=
    DecUnit.push_cases h
  · exact absurd (DecUnit.pbuf_of_push_ready hr h) hw
  · exact absurd rfl hw
  · exact absurd rfl hw
  · exact absurd rfl hw
  · exact absurd rfl hw
  · obtain ⟨-, hp, -⟩ | ⟨hs, -, -⟩ := DecUnit.takeLogical_buffer hd
    · exact absurd hp hw
    · exact hs

/-- A command that leaves PBUF different is a DEC_PUSH_BYTE in DATA. -/
theorem exec_of_writes_pbuf {i : Instr} {s t : State} (h : leftBy (exec i s) = some t)
    (hw : t.dec.pbuf ≠ s.dec.pbuf) : s.dec.st = .data ∧ ∃ b, i = .decPushByte b := by
  cases i with
  | decPushByte b =>
    refine ⟨?_, b, rfl⟩
    cases hp : s.dec.push s.params b with
    | none =>
      simp only [exec, execDecPushByte, hp] at h
      cases h
      exact absurd rfl hw
    | some dr =>
      rw [exec, execDecPushByte_of_push hp] at h
      cases h
      exact DecUnit.st_of_push_writes_pbuf hp hw
  | decClear => cases h; exact absurd rfl hw
  | encAssemble =>
    obtain ⟨-, -, rfl⟩ | ⟨-, -, r, rfl⟩ := leftBy_execEncAssemble h <;> exact absurd rfl hw
  | encReadLen | encReadByte | decReadStatus | decReadLen | decReadSrc | decReadDst | decReadByte =>
    obtain ⟨r, rfl⟩ := leftBy_exec_of_isReadCommand rfl h
    exact absurd rfl hw

/-- Settles O29: the escape byte by row 7 of R150, a payload byte by R147, and PBUF by what each command can
leave. -/
theorem dataBytesLandAtCnt : Obligations.DataBytesLandAtCnt := by
  refine ⟨fun s hs he => ?_, fun s b hs hc h1 h2 => ?_, fun _ _ _ => exec_of_writes_pbuf⟩
  · exact execDecPushByte_of_push (DecUnit.push_escape s.params (by rw [hs]; rfl) he)
  · intro v d
    refine ⟨Memory.read_write_same _ _ _, fun i hi => Memory.read_write_other _ _ _ _ hi, ?_⟩
    have taken : DecUnit.takeLogical s.params v { s.dec with esc := false }
        = some (if s.dec.cnt.toNat + 1 = s.dec.lenAcc.toNat then d.exitData s.params else d) :=
      (DecUnit.takeLogical_of_data (d := { s.dec with esc := false }) hs).trans
        (DecUnit.takeData_of_lt v hc)
    rw [exec, execDecPushByte_of_other (by rw [hs]; rfl) h1 h2 taken]
    by_cases hn : s.dec.cnt.toNat + 1 = s.dec.lenAcc.toNat
    · cases hk : s.params.checksumEn <;> simp [hn, DecUnit.exitData, hk, State.answer, d, Status.code]
    · simp [hn, State.answer]

/-! ### Reads (R60) -/

/-- From `s` and whatever has been answered before, `f` adds one fixed response, changes nothing else, and
always or never completes. -/
def OnlyAnswers (f : State → Host.Outcome State Fault Refusal) (s : State) : Prop :=
  ∃ r c, ∀ rs, leftBy (f { s with responses := rs }) = some { s with responses := r :: rs }
    ∧ completes (f { s with responses := rs }) = c

/-- What does as one that only answers does, only answers. -/
theorem OnlyAnswers.congr {f g : State → Host.Outcome State Fault Refusal} {s : State}
    (h : OnlyAnswers g s) (hfg : ∀ rs, f { s with responses := rs } = g { s with responses := rs }) :
    OnlyAnswers f s := by
  obtain ⟨r, c, h⟩ := h
  exact ⟨r, c, fun rs => hfg rs ▸ h rs⟩

/-- A value answered (R75). -/
theorem onlyAnswers_respond {w : Nat} (v : BitVec w) (s : State) : OnlyAnswers (respond v) s :=
  ⟨⟨true, v.setWidth 32⟩, true, fun _ => ⟨rfl, rfl⟩⟩

/-- AccessOutOfRange (R186). -/
theorem onlyAnswers_raiseAccessOutOfRange (s : State) : OnlyAnswers raiseAccessOutOfRange s :=
  ⟨⟨false, 2⟩, false, fun _ => ⟨rfl, rfl⟩⟩

/-- EncSizeViolation while the fault flag is set already (R24). -/
theorem onlyAnswers_raiseEncSizeViolation {s : State} (h : s.enc.encFault = true) :
    OnlyAnswers raiseEncSizeViolation s :=
  ⟨⟨false, 1⟩, false, fun rs => by
    rw [raiseEncSizeViolation_of_set (s := { s with responses := rs }) h]; exact ⟨rfl, rfl⟩⟩

/-- A buffer read: the element's value, or AccessOutOfRange where it holds none (R53). -/
theorem onlyAnswers_respondElement (m : Memory) (bound : Nat) (idx : Index) (s : State) :
    OnlyAnswers (respondElement m bound idx) s := by
  by_cases hi : idx.toNat < bound
  · cases hv : m.read idx.toNat with
    | some v => exact (onlyAnswers_respond v s).congr fun rs => by simp [respondElement, hi, hv]
    | none =>
      exact (onlyAnswers_raiseAccessOutOfRange s).congr fun rs => by simp [respondElement, hi, hv]
  · exact (onlyAnswers_raiseAccessOutOfRange s).congr fun _ =>
      respondElement_of_le _ (Nat.not_lt.mp hi)

/-- An encoder command that only answers, behind the check of the fault flag (R188). -/
theorem OnlyAnswers.whenEncoderEnabled {f : State → Host.Outcome State Fault Refusal} {s : State}
    (h : OnlyAnswers f s) : OnlyAnswers (fun t => Machine.whenEncoderEnabled t (f t)) s := by
  cases hf : s.enc.encFault with
  | false => exact h.congr fun rs => whenEncoderEnabled_of_clear (s := { s with responses := rs }) hf _
  | true =>
    exact (onlyAnswers_raiseEncSizeViolation hf).congr fun rs =>
      whenEncoderEnabled_of_set (s := { s with responses := rs }) hf _

/-- Each of the seven reads only answers, and its answer does not depend on earlier ones. -/
theorem onlyAnswers_exec_of_isReadCommand {i : Instr} (hi : isReadCommand i = true) (s : State) :
    OnlyAnswers (exec i) s := by
  cases i with
  | encAssemble | decPushByte | decClear => cases hi
  | encReadLen => exact (onlyAnswers_respond s.enc.olen s).whenEncoderEnabled
  | encReadByte idx =>
    exact (onlyAnswers_respondElement s.enc.obuf s.enc.olen.toNat idx s).whenEncoderEnabled
  | decReadStatus => exact onlyAnswers_respond s.dec.status.code s
  | decReadLen => exact onlyAnswers_respond s.dec.lenAcc s
  | decReadSrc => exact onlyAnswers_respond s.dec.srcAcc s
  | decReadDst => exact onlyAnswers_respond s.dec.dstAcc s
  | decReadByte idx => exact onlyAnswers_respondElement s.dec.pbuf s.dec.cnt.toNat idx s

/-- Settles O36: the state a read leaves differs in the responses only, on which its answer does not depend. -/
theorem readsHaveNoSideEffects : Obligations.ReadsHaveNoSideEffects := by
  intro i s t hi h
  obtain ⟨r, c, only⟩ := onlyAnswers_exec_of_isReadCommand hi s
  obtain ⟨left, outcome⟩ := only s.responses
  obtain ⟨left', outcome'⟩ := only (r :: s.responses)
  obtain rfl : { s with responses := r :: s.responses } = t := Option.some.inj (left.symm.trans h)
  exact ⟨rfl, r, rfl, left', outcome'.trans outcome.symm⟩

end Sys2Proof.Machine
end

section
/-! The statement of spec/30_encoding.md on illegal words (R73): the reserved bits of a format as one run with RSV
on top (R70, R71), and the decoder's answer by the reserved bits and the opcode. -/

namespace Sys2Proof.Machine

/-! ### The reserved bits as a run of bits (R70, R71) -/

/-- The lowest reserved bit of an opcode's words: from it up to bit 59 every bit is reserved. -/
def reservedFrom (opc : BitVec 4) : Nat :=
  if opc = 0x1 then 48 else if opc = 0x4 then 8 else if opc = 0x3 ∨ opc = 0xA then 18 else 0

/-- The reserved mask is the run of ones from there up to bit 59. -/
theorem reservedMask_eq_run : ∀ opc : BitVec 4, reservedMask opc
    = (BitVec.allOnes (12 + (48 - reservedFrom opc))).setWidth 64 <<< reservedFrom opc := by
  decide

/-- RSV, bits 48 to 59, is reserved for every opcode (R70). -/
theorem reservedFrom_le : ∀ opc : BitVec 4, reservedFrom opc ≤ 48 := by decide

/-- A vector has no bit in a run of ones exactly when its field there is 0. -/
theorem and_run_eq_zero_iff {w : Nat} (x : BitVec w) (k n : Nat) :
    x &&& (BitVec.allOnes n).setWidth w <<< k = 0#w ↔ x.extractLsb' k n = 0#n := by
  simp only [BitVec.eq_of_getLsbD_eq_iff, BitVec.getLsbD_and, BitVec.getLsbD_shiftLeft,
    BitVec.getLsbD_setWidth, BitVec.getLsbD_allOnes, BitVec.getLsbD_extractLsb', BitVec.getLsbD_zero]
  constructor
  · intro h i hi
    by_cases hw : k + i < w
    · simpa [hw, hi, show i < w by omega] using h (k + i) hw
    · simp [BitVec.getLsbD_of_ge x (k + i) (by omega)]
  · intro h j hj
    by_cases hk : k ≤ j ∧ j - k < n
    · have hb := h (j - k) hk.2
      simp only [hk.2, decide_true, Bool.true_and, Nat.add_sub_cancel' hk.1] at hb
      simp [hb]
    · obtain hlow | hhigh := not_and_or.mp hk
      · simp [Nat.not_le.mp hlow]
      · simp [hhigh]

/-- A field is 0 exactly when its two parts are. -/
theorem extract_add_eq_zero_iff {w : Nat} (x : BitVec w) (k n m : Nat) :
    x.extractLsb' k (n + m) = 0 ↔ x.extractLsb' (k + m) n = 0 ∧ x.extractLsb' k m = 0 := by
  rw [← extract_append_extract]
  constructor
  · intro h
    exact ⟨by simpa [extract_append_high] using congrArg (BitVec.extractLsb' m n) h,
      by simpa [extract_append_low] using congrArg (BitVec.extractLsb' 0 m) h⟩
  · rintro ⟨hn, hm⟩
    rw [hn, hm]
    exact BitVec.zero_append_zero

/-- No reserved bit of a word is set exactly when RSV and the reserved part of its operand area are 0. -/
theorem and_reservedMask_eq_zero_iff (cw : CmdWord) {opc : BitVec 4} : cw &&& reservedMask opc = 0 ↔
    rsvField cw = 0 ∧ cw.extractLsb' (reservedFrom opc) (48 - reservedFrom opc) = 0 := by
  have h := extract_add_eq_zero_iff cw (reservedFrom opc) 12 (48 - reservedFrom opc)
  rw [Nat.add_sub_cancel' (reservedFrom_le opc)] at h
  rw [reservedMask_eq_run]
  exact (and_run_eq_zero_iff cw _ _).trans h

/-! ### The decoder by the reserved bits (R72 to R74) -/

/-- The answer for a word of a legal opcode that would spell `i`: no reserved bit may be set, and the data phase
must have the announced length. -/
def decodeChecked (cw : CmdWord) (data : List Byte) (i : Instr) : Except DecodeError Instr :=
  if cw &&& reservedMask (opcField cw) = 0 then
    if data.length = dataLength cw then .ok i else .error .dataPhase
  else .error .reservedBits

/-- A command without a data phase decodes with an empty one only. -/
theorem withoutData_eq (data : List Byte) (i : Instr) :
    withoutData data i = if data.length = 0 then .ok i else .error .dataPhase := by
  cases data <;> rfl

/-- The checks of the formats B, I and N, which reserve the operand bits from `reservedFrom` up. -/
theorem checkOperands_eq_decodeChecked {cw : CmdWord} {data : List Byte} {i : Instr} (opc : BitVec 4)
    (hrsv : rsvField cw = 0) (hopc : (opcField cw).toNat = opc.toNat) (hA : opc ≠ 0x1) :
    (if cw.extractLsb' (reservedFrom opc) (48 - reservedFrom opc) = 0 then withoutData data i
      else .error .reservedBits) = decodeChecked cw data i := by
  simp only [decodeChecked, dataLength, BitVec.eq_of_toNat_eq hopc, and_reservedMask_eq_zero_iff, hrsv,
    true_and, withoutData_eq, if_neg hA]

/-- The checks of format A, which reserves no operand bit. -/
theorem decodeA_eq_decodeChecked {cw : CmdWord} {data : List Byte} (hrsv : rsvField cw = 0)
    (hopc : (opcField cw).toNat = 1) : decodeA cw data
      = decodeChecked cw data (.encAssemble (lenField cw) (srcField cw) (dstField cw) data) := by
  have hmask : cw &&& reservedMask 0x1 = 0 :=
    (and_reservedMask_eq_zero_iff cw).mpr ⟨hrsv, BitVec.eq_of_zero_length rfl⟩
  have hA : opcField cw = 0x1 := BitVec.eq_of_toNat_eq hopc
  simp only [decodeChecked, dataLength, hA, if_pos hmask, if_true, decodeA]

/-- The opcodes that are not reserved are the ten of R72. -/
theorem legal_opcode_iff (opc : BitVec 4) :
    ¬ (opc = 0x0 ∨ 0xB#4 ≤ opc) ↔ 1 ≤ opc.toNat ∧ opc.toNat ≤ 10 := by
  bv_omega

/-- A word of a legal opcode with RSV = 0 is decoded by the checks of its format (R72). -/
theorem decode_of_legal_opcode {cw : CmdWord} (data : List Byte) (hrsv : rsvField cw = 0)
    (h : ¬ (opcField cw = 0x0 ∨ 0xB#4 ≤ opcField cw)) :
    ∃ i, decode cw data = decodeChecked cw data i := by
  rw [decode, if_pos hrsv]
  split
  case h_1 ho => exact ⟨_, decodeA_eq_decodeChecked hrsv ho⟩
  case h_2 ho => exact ⟨_, checkOperands_eq_decodeChecked 0x2 hrsv ho (by decide)⟩
  case h_3 ho => exact ⟨_, checkOperands_eq_decodeChecked 0x3 hrsv ho (by decide)⟩
  case h_4 ho => exact ⟨_, checkOperands_eq_decodeChecked 0x4 hrsv ho (by decide)⟩
  case h_5 ho => exact ⟨_, checkOperands_eq_decodeChecked 0x5 hrsv ho (by decide)⟩
  case h_6 ho => exact ⟨_, checkOperands_eq_decodeChecked 0x6 hrsv ho (by decide)⟩
  case h_7 ho => exact ⟨_, checkOperands_eq_decodeChecked 0x7 hrsv ho (by decide)⟩
  case h_8 ho => exact ⟨_, checkOperands_eq_decodeChecked 0x8 hrsv ho (by decide)⟩
  case h_9 ho => exact ⟨_, checkOperands_eq_decodeChecked 0x9 hrsv ho (by decide)⟩
  case h_10 ho => exact ⟨_, checkOperands_eq_decodeChecked 0xA hrsv ho (by decide)⟩
  case h_11 =>
    simp only [imp_false] at *
    have hn := (legal_opcode_iff _).mp h
    omega

/-- A word of a reserved opcode with RSV = 0 is refused for its opcode (R73). -/
theorem decode_of_reserved_opcode {cw : CmdWord} (data : List Byte) (hrsv : rsvField cw = 0)
    (h : opcField cw = 0x0 ∨ 0xB#4 ≤ opcField cw) : decode cw data = .error .reservedOpcode := by
  have hn := mt (legal_opcode_iff _).mpr (not_not.mpr h)
  rw [decode, if_pos hrsv]
  split
  case h_11 => rfl
  all_goals omega

/-! ### Illegal words (R73, R187) -/

/-- A command that does not decode is refused by the step that takes it. -/
theorem step_of_decode_error {s : State} {cw : CmdWord} {data : List Byte} {rest : List HostMove}
    {e : DecodeError} (hm : s.moves = .command cw data :: rest) (hd : decode cw data = .error e) :
    step s = refuseCommand e { s with moves := rest } := by
  simp only [step, takeMove, hm, takeCommand, hd]

/-- An illegal word is refused for its opcode or for a reserved bit, never for its data phase. -/
theorem decode_of_illegal {cw : CmdWord} (data : List Byte)
    (h : opcField cw = 0x0 ∨ 0xB#4 ≤ opcField cw ∨ cw &&& reservedMask (opcField cw) ≠ 0) :
    decode cw data = .error .reservedOpcode ∨ decode cw data = .error .reservedBits := by
  by_cases hrsv : rsvField cw = 0
  · by_cases ho : opcField cw = 0x0 ∨ 0xB#4 ≤ opcField cw
    · exact .inl (decode_of_reserved_opcode data hrsv ho)
    · obtain ⟨i, hd⟩ := decode_of_legal_opcode data hrsv ho
      exact .inr (hd.trans (if_neg ((or_assoc.mpr h).resolve_left ho)))
  · exact .inr (if_neg hrsv)

/-- A word that is not illegal spells a command with a data phase of the announced length (R74). -/
theorem decode_of_legal {cw : CmdWord} {data : List Byte}
    (h : ¬ (opcField cw = 0x0 ∨ 0xB#4 ≤ opcField cw ∨ cw &&& reservedMask (opcField cw) ≠ 0))
    (hlen : data.length = dataLength cw) : ∃ i, decode cw data = .ok i := by
  rw [← or_assoc, not_or, not_not] at h
  obtain ⟨ho, hmask⟩ := h
  obtain ⟨i, hd⟩ := decode_of_legal_opcode data ((and_reservedMask_eq_zero_iff cw).mp hmask).1 ho
  exact ⟨i, by rw [hd, decodeChecked, if_pos hmask, if_pos hlen]⟩

/-- Settles O4: both ways the decoder refuses an illegal word end in IllegalCommand, and a legal word passes the
decoder's checks. -/
theorem illegalWordsAreRefused : Obligations.IllegalWordsAreRefused := by
  refine ⟨fun s cw data rest hm hillegal => ?_, fun _ _ => decode_of_legal⟩
  obtain hd | hd := decode_of_illegal data hillegal
  · exact step_of_decode_error hm hd
  · exact step_of_decode_error hm hd

end Sys2Proof.Machine
end

section
/-! The statements of spec/40_primitives.md: ESCAPE and its append at the write cursor (R100), UNESCAPE (R102),
and CHECKSUM as a number (R104). -/

namespace Sys2Proof.Machine

/-! ### CHECKSUM (R104) -/

/-- `v[15:8]` as a number. -/
theorem toNat_hiByte (v : Half) : (hiByte v).toNat = v.toNat / 256 := by
  have hv := v.isLt
  rw [hiByte, BitVec.extractLsb'_toNat, Nat.shiftRight_eq_div_pow]
  exact Nat.mod_eq_of_lt (by omega)

/-- `v[7:0]` as a number. -/
theorem toNat_loByte (v : Half) : (loByte v).toNat = v.toNat % 256 := by
  rw [loByte, BitVec.extractLsb'_toNat, Nat.shiftRight_zero]

/-- The sum of a list of bytes is the sum of their numbers modulo 256. -/
theorem toNat_sumBytes (bs : List Byte) : (sumBytes bs).toNat = (bs.map BitVec.toNat).sum % 256 := by
  induction bs with
  | nil => rfl
  | cons b bs ih => rw [sumBytes_cons, BitVec.toNat_add, ih, List.map_cons, List.sum_cons, Nat.add_mod_mod]

/-- The sum of a list of bytes does not depend on their order. -/
theorem sumBytes_perm {bs bs' : List Byte} (h : bs.Perm bs') : sumBytes bs = sumBytes bs' :=
  BitVec.eq_of_toNat_eq (by rw [toNat_sumBytes, toNat_sumBytes, (h.map _).sum_eq])

/-- The header's sum as a number: its length bytes, and its address bytes when it has them. -/
theorem toNat_headerSum (p : Params) (len src dst : Half) :
    (headerSum p len src dst).toNat = (len.toNat / 256 + len.toNat % 256
      + (if p.addressEn = true then
          src.toNat / 256 + src.toNat % 256 + dst.toNat / 256 + dst.toNat % 256 else 0)) % 256 := by
  cases ha : p.addressEn with
  | false => simp [headerSum, ha, toNat_hiByte, toNat_loByte]
  | true =>
    simp only [headerSum, ha, if_true, BitVec.toNat_add, toNat_hiByte, toNat_loByte]
    omega

/-- The complement of a byte to `0xFF` does not wrap. -/
theorem toNat_allOnes_sub (b : Byte) : (0xFF - b).toNat = 255 - b.toNat :=
  BitVec.toNat_sub_of_le (BitVec.le_def.mpr (Nat.le_of_lt_succ b.isLt))

/-- Without addresses the sum is over the length bytes and the payload. -/
theorem checksumOf_of_noAddress {p : Params} (h : p.addressEn = false) (len src dst : Half)
    (payload : List Byte) :
    checksumOf p len src dst payload = 0xFF - (hiByte len + loByte len + sumBytes payload) := by
  rw [checksumOf, headerSum, h]
  rfl

/-- A frame of one payload byte that needs no escape, without addresses, ends in its escaped checksum after
four wire bytes. -/
theorem drop_four_frameBytes_one {p : Params} (ha : p.addressEn = false) (hc : p.checksumEn = true)
    (src dst : Half) {b : Byte} (hb : escapeByte b = [b]) :
    (frameBytes p 1 src dst [b]).drop 4 = escapeByte (checksumOf p 1 src dst [b]) := by
  have logical : logicalBytes p 1 src dst [b] = [0x00, 0x01, b, checksumOf p 1 src dst [b]] := by
    rw [logicalBytes, ha, hc]
    rfl
  rw [frameBytes, logical]
  simp only [List.flatMap_cons, List.flatMap_nil, List.append_nil, hb]
  rfl

/-- Settles O10: each operand of the sum as a number, the order through the sum of the numbers, and the rule's
examples without addresses. -/
theorem checksumIsComplementOfSum : Obligations.ChecksumIsComplementOfSum := by
  refine ⟨fun p len src dst payload => ?_, fun p len src dst payload payload' h => ?_, rfl,
    fun p src dst ha => ?_⟩
  · rw [checksumOf, toNat_allOnes_sub, BitVec.toNat_add, toNat_headerSum, toNat_sumBytes, ← Nat.add_mod]
  · rw [checksumOf, checksumOf, sumBytes_perm h]
  · have h7E : checksumOf p 1 src dst [0x80] = 0x7E := checksumOf_of_noAddress ha ..
    have h7D : checksumOf p 1 src dst [0x81] = 0x7D := checksumOf_of_noAddress ha ..
    refine ⟨checksumOf_of_noAddress ha .., checksumOf_of_noAddress ha .., h7E, h7D, fun hc => ⟨?_, ?_⟩⟩
    · rw [drop_four_frameBytes_one ha hc src dst rfl, h7E]
      rfl
    · rw [drop_four_frameBytes_one ha hc src dst rfl, h7D]
      rfl

/-! ### ESCAPE (R100) and UNESCAPE (R102) -/

/-- A run of writes in two parts: the second starts where the first ends. -/
theorem Memory.writeFrom_append (m : Memory) (i : Nat) (us vs : List Byte) :
    m.writeFrom i (us ++ vs) = (m.writeFrom i us).writeFrom (i + us.length) vs := by
  induction us generalizing m i with
  | nil => rfl
  | cons u us ih =>
    rw [List.cons_append, Memory.writeFrom, ih, List.length_cons, Nat.add_comm us.length, ← Nat.add_assoc]
    rfl

/-- ESCAPE as the rule's conditional. -/
theorem escapeByte_eq_ite (b : Byte) :
    escapeByte b = if b = 0x7E ∨ b = 0x7D then [0x7D, b ^^^ 0x20] else [b] := by
  simp only [escapeByte, isSpecial_iff]

/-- An escaped byte is one or two bytes. -/
theorem length_escapeByte_eq_one_or_two (b : Byte) :
    (escapeByte b).length = 1 ∨ (escapeByte b).length = 2 := by
  have hpos := length_escapeByte_pos b
  have hle := wireWidth_le_two b
  rw [← length_escapeByte] at hle
  omega

/-- Settles O7: the rule's conditional, the bounds on its length, and the two-part run of writes. -/
theorem escapeFollowsItsRule : Obligations.EscapeFollowsItsRule :=
  ⟨escapeByte_eq_ite, rfl, rfl, rfl, rfl, rfl, rfl, rfl, rfl, rfl, length_escapeByte_eq_one_or_two, rfl,
    fun m cursor b rest => m.writeFrom_append cursor (escapeByte b) rest⟩

/-- Settles O8: the model's UNESCAPE is the rule's conditional on every byte, so on those that pass the global
check. -/
theorem unescapeFollowsItsRule : Obligations.UnescapeFollowsItsRule :=
  ⟨fun _ _ _ _ => rfl, rfl, rfl, rfl, rfl, rfl, rfl⟩

end Sys2Proof.Machine
end

section
/-! The statements of spec/41_encoder.md on ENC_ASSEMBLE (R120), ENC_READ_LEN (R123) and ENC_READ_BYTE (R124):
the command words as the rules' formulas, the frame's rules, and what each command answers. -/

namespace Sys2Proof.Machine

/-! ### The command words as the rules' formulas (R120, R124) -/

/-- A built word is its opcode shifted to bit 60 or-ed with its operands. -/
theorem wordOf_eq_or (opc : BitVec 4) (x : BitVec 48) :
    wordOf opc x = opc.setWidth 64 <<< 60 ||| x.setWidth 64 := by
  have h := BitVec.setWidth_append_append_eq_shiftLeft_setWidth_or (b := opc) (b' := 0#12) (b'' := x)
    (w''' := 64)
  simpa [wordOf] using h

/-- ENC_ASSEMBLE's word (R120). -/
theorem encodeWord_encAssemble (len src dst : Half) (payload : List Byte) :
    encodeWord (.encAssemble len src dst payload)
      = 0x1000000000000000#64 ||| (len.setWidth 64 <<< 32) ||| (src.setWidth 64 <<< 16)
        ||| dst.setWidth 64 := by
  rw [encodeWord, wordOf_eq_or, BitVec.setWidth_append_append_eq_shiftLeft_setWidth_or, ← BitVec.or_assoc,
    ← BitVec.or_assoc]
  rfl

/-- ENC_READ_BYTE's word (R124). -/
theorem encodeWord_encReadByte (idx : Index) :
    encodeWord (.encReadByte idx) = 0x3000000000000000#64 ||| idx.setWidth 64 := by
  rw [encodeWord, wordOf_eq_or, BitVec.setWidth_append_eq_shiftLeft_setWidth_or, BitVec.setWidth_zero,
    BitVec.zero_shiftLeft, BitVec.zero_or]
  rfl

/-! ### The frame (R9, R120) -/

/-- A frame within CAPACITY fits in OBUF (R9). -/
theorem length_frameBytes_le_obufDepth {p : Params} {len : Half} (src dst : Half) {payload : List Byte}
    (hl : payload.length = len.toNat) (hle : len ≤ p.capacity) :
    (frameBytes p len src dst payload).length ≤ p.obufDepth := by
  have hf := length_frameBytes_le p len src dst payload
  have hc := BitVec.le_def.mp hle
  rw [Params.obufDepth]
  omega

/-- Without addresses SRC and DST enter neither the frame nor its checksum. -/
theorem frameBytes_congr_of_noAddress {p : Params} (h : p.addressEn = false) (len src dst src' dst' : Half)
    (payload : List Byte) : frameBytes p len src dst payload = frameBytes p len src' dst' payload := by
  simp [frameBytes, logicalBytes, checksumOf_of_noAddress h, h]

/-- The rule's example: the checksum of the payload `80` is the delimiter's value, so it is escaped. -/
theorem frameBytes_example {p : Params} (ha : p.addressEn = false) (hc : p.checksumEn = true)
    (src dst : Half) : frameBytes p 1 src dst [0x80] = [0x7E, 0x00, 0x01, 0x80, 0x7D, 0x5E] := by
  have logical : logicalBytes p 1 src dst [0x80] = [0x00, 0x01, 0x80, 0x7E] := by
    rw [logicalBytes, ha, hc, checksumOf_of_noAddress ha]
    rfl
  rw [frameBytes, logical]
  rfl

/-! ### ENC_ASSEMBLE (R120) -/

/-- ENC_ASSEMBLE with the flag clear and LEN within CAPACITY writes its frame and answers the frame's length. -/
theorem exec_encAssemble_of_le {s : State} {len : Half} (src dst : Half) {payload : List Byte}
    (hl : payload.length = len.toNat) (hf : s.enc.encFault = false) (hle : len ≤ s.params.capacity) :
    exec (.encAssemble len src dst payload) s
      = .next ({ s with enc := s.enc.emit (frameBytes s.params len src dst payload) }.answer
          ⟨true, BitVec.ofNat 32 (frameBytes s.params len src dst payload).length⟩) := by
  have answered : (BitVec.ofNat 18 (frameBytes s.params len src dst payload).length).setWidth 32
      = BitVec.ofNat 32 (frameBytes s.params len src dst payload).length := by
    rw [← BitVec.ofNat_toNat, toNat_ofNat_length_frameBytes _ _ _ hl]
  obtain ⟨hn, -⟩ | ⟨-, hs | hlt, -⟩ | ⟨-, -, -, e⟩ := execEncAssemble_cases len src dst payload s
  · exact absurd hl hn
  · simp [hf] at hs
  · exact absurd hlt (BitVec.not_lt.mpr hle)
  · rw [exec, e, assembleFrame, respond, answered]

/-- A completed ENC_ASSEMBLE leaves the fault flag clear, as it found it. -/
theorem encFault_of_execEncAssemble_next {len src dst : Half} {payload : List Byte} {s t : State}
    (h : execEncAssemble len src dst payload s = .next t) : t.enc.encFault = false := by
  obtain ⟨-, e⟩ | ⟨-, -, e⟩ | ⟨-, hf, -, e⟩ := execEncAssemble_cases len src dst payload s <;>
    rw [e] at h <;> cases h
  exact hf

/-- The rule's example completes and leaves its six wire bytes in OBUF. -/
theorem exec_encAssemble_example {s : State} (src dst : Half) (hf : s.enc.encFault = false)
    (hle : 1 ≤ s.params.capacity) (hc : s.params.checksumEn = true) (ha : s.params.addressEn = false) :
    ∃ t, exec (.encAssemble 1 src dst [0x80]) s = .next t
      ∧ t.enc = s.enc.emit [0x7E, 0x00, 0x01, 0x80, 0x7D, 0x5E] :=
  ⟨_, exec_encAssemble_of_le src dst rfl hf hle, by rw [frameBytes_example ha hc]; rfl⟩

/-! ### ENC_READ_LEN (R123) -/

/-- An encoder command while the fault flag is set answers code 1 and changes nothing else (R24, R185). -/
theorem whenEncoderEnabled_eq_fault_of_set {s : State} (hf : s.enc.encFault = true)
    (o : Host.Outcome State Fault Refusal) :
    whenEncoderEnabled s o = .fault (.encSizeViolation (s.answer ⟨false, 1⟩)) :=
  (whenEncoderEnabled_of_set hf o).trans (raiseEncSizeViolation_of_set hf)

/-- ENC_READ_LEN with the flag clear. -/
theorem exec_encReadLen_of_clear {s : State} (hf : s.enc.encFault = false) :
    exec .encReadLen s = .next (s.answer ⟨true, s.enc.olen.setWidth 32⟩) :=
  whenEncoderEnabled_of_clear hf _

/-- Settles O20: the flag decides, and the example's frame has six bytes. -/
theorem readLenAnswersOlen : Obligations.ReadLenAnswersOlen := by
  refine ⟨rfl, fun s => exec_encReadLen_of_clear, fun s hf => whenEncoderEnabled_eq_fault_of_set hf _,
    exec_encReadLen_of_clear rfl, fun s src dst hf hle hc ha => ?_⟩
  obtain ⟨t, ht, henc⟩ := exec_encAssemble_example src dst hf hle hc ha
  have holen : t.enc.olen = 6 := by rw [henc]; rfl
  refine ⟨t, ht, ?_⟩
  rw [exec_encReadLen_of_clear (encFault_of_execEncAssemble_next ht), holen]
  rfl

/-! ### ENC_READ_BYTE (R124) -/

/-- ENC_READ_BYTE below `olen`, of an element that holds a value. -/
theorem exec_encReadByte_of_read {s : State} {idx : Index} {v : Byte} (hf : s.enc.encFault = false)
    (hi : idx.toNat < s.enc.olen.toNat) (hv : s.enc.obuf.read idx.toNat = some v) :
    exec (.encReadByte idx) s = .next (s.answer ⟨true, v.setWidth 32⟩) :=
  (whenEncoderEnabled_of_clear hf _).trans (respondElement_of_read s hi hv)

/-- ENC_READ_BYTE at or above `olen`. -/
theorem exec_encReadByte_of_le {s : State} {idx : Index} (hf : s.enc.encFault = false)
    (hi : s.enc.olen.toNat ≤ idx.toNat) :
    exec (.encReadByte idx) s = .fault (.accessOutOfRange (s.answer ⟨false, 2⟩)) :=
  (whenEncoderEnabled_of_clear hf _).trans (respondElement_of_le s hi)

/-- After an assembly `olen` is the frame's length. -/
theorem toNat_olen_of_execEncAssemble_next {len src dst : Half} {payload : List Byte} {s t : State}
    (h : execEncAssemble len src dst payload s = .next t) :
    t.enc.olen.toNat = (frameBytes s.params len src dst payload).length := by
  obtain ⟨hl, henc⟩ := enc_of_execEncAssemble_next h
  rw [henc, EncUnit.emit_olen, toNat_ofNat_length_frameBytes _ _ _ hl]

/-- After an assembly ENC_READ_BYTE answers the frame's bytes. -/
theorem exec_encReadByte_of_assembled {len src dst : Half} {payload : List Byte} {s t : State}
    (h : execEncAssemble len src dst payload s = .next t) {idx : Index} {v : Byte}
    (hv : (frameBytes s.params len src dst payload)[idx.toNat]? = some v) :
    exec (.encReadByte idx) t = .next (t.answer ⟨true, v.setWidth 32⟩) := by
  have hi : idx.toNat < t.enc.olen.toNat := by
    rw [toNat_olen_of_execEncAssemble_next h]
    exact (List.getElem?_eq_some_iff.mp hv).1
  have hread : t.enc.obuf.read idx.toNat = some v := by
    obtain ⟨hl, henc⟩ := enc_of_execEncAssemble_next h
    rw [henc] at hi ⊢
    rw [read_obuf_emit s.enc hl, if_pos hi, hv]
  exact exec_encReadByte_of_read (encFault_of_execEncAssemble_next h) hi hread

/-- After an assembly ENC_READ_BYTE faults beyond the frame. -/
theorem exec_encReadByte_beyond_assembled {len src dst : Half} {payload : List Byte} {s t : State}
    (h : execEncAssemble len src dst payload s = .next t) {idx : Index}
    (hi : (frameBytes s.params len src dst payload).length ≤ idx.toNat) :
    exec (.encReadByte idx) t = .fault (.accessOutOfRange (t.answer ⟨false, 2⟩)) :=
  exec_encReadByte_of_le (encFault_of_execEncAssemble_next h)
    ((toNat_olen_of_execEncAssemble_next h).symm ▸ hi)

/-- The last index of an assembled frame answers its last byte. -/
theorem exec_encReadByte_last {len src dst : Half} {payload : List Byte} {s t : State}
    (h : execEncAssemble len src dst payload s = .next t) :
    ∃ v, (frameBytes s.params len src dst payload).getLast? = some v
      ∧ exec (.encReadByte (t.enc.olen - 1)) t = .next (t.answer ⟨true, v.setWidth 32⟩) := by
  have hne : frameBytes s.params len src dst payload ≠ [] := List.cons_ne_nil _ _
  have hpos := List.length_pos_iff.mpr hne
  have hlen := toNat_olen_of_execEncAssemble_next h
  have hlast : (t.enc.olen - 1).toNat = (frameBytes s.params len src dst payload).length - 1 := by
    rw [BitVec.toNat_sub_of_le (by bv_omega), hlen]
    rfl
  refine ⟨_, List.getLast?_eq_some_getLast hne, exec_encReadByte_of_assembled h ?_⟩
  rw [hlast, ← List.getLast?_eq_getElem?, List.getLast?_eq_some_getLast hne]

/-- In every state of the invariant an index below `olen` names an element that holds a value (R22, R124). -/
theorem read_obuf_of_inv {s : State} {idx : Index} (hinv : s.Inv) (hi : idx.toNat < s.enc.olen.toNat) :
    ∃ v, s.enc.obuf.read idx.toNat = some v :=
  Option.isSome_iff_exists.mp (hinv.enc.buffer.holds _ hi)

/-- Settles O21: the flag, the index against `olen`, and the invariant's value below it; after an assembly, the
frame's bytes. -/
theorem readByteAnswersObuf : Obligations.ReadByteAnswersObuf := by
  refine ⟨encodeWord_encReadByte, fun s idx hf => whenEncoderEnabled_eq_fault_of_set hf _,
    fun s idx => exec_encReadByte_of_le, fun s idx hinv hf hi => ?_, fun s hinv hf hpos => ?_,
    fun s t len src dst payload => exec_encReadByte_last,
    fun idx => exec_encReadByte_of_le rfl (Nat.zero_le _), fun s src dst hf hle hc ha => ?_⟩
  · obtain ⟨v, hv⟩ := read_obuf_of_inv hinv hi
    exact ⟨v, hv, exec_encReadByte_of_read hf hi hv⟩
  · exact exec_encReadByte_of_read hf hpos (hinv.enc.starts ((BitVec.pos_iff_ne_zero _).mp hpos))
  · obtain ⟨t, ht, -⟩ := exec_encAssemble_example src dst hf hle hc ha
    have frame := frameBytes_example ha hc src dst
    exact ⟨t, ht, exec_encReadByte_of_assembled ht (idx := 4) (v := 0x7D) (by rw [frame]; rfl),
      exec_encReadByte_beyond_assembled ht (idx := 6) (by rw [frame]; decide)⟩

/-- Settles O15: the flag and LEN against CAPACITY decide; the frame field by field is O13's, and what OBUF
holds after it is a run of writes. -/
theorem assembleWritesTheFrame : Obligations.AssembleWritesTheFrame := by
  refine ⟨encodeWord_encAssemble, fun s len src dst payload hl hf => ?_,
    fun s len src dst payload hl _ hlt => ?_, fun s len src dst payload hl hf hle => ?_,
    fun p len src dst src' dst' payload h => frameBytes_congr_of_noAddress h .., ?_,
    fun p src dst ha hc => frameBytes_example ha hc src dst⟩
  · exact (execEncAssemble_of_violation hl (.inl hf)).trans (raiseEncSizeViolation_of_set hf)
  · exact execEncAssemble_of_violation hl (.inr hlt)
  · intro out t
    have frame : frameBytes s.params len src dst payload = out := by
      simpa [out, List.append_assoc] using (frameHasItsFieldsInOrder s.params len src dst payload).1
    have completed : exec (.encAssemble len src dst payload) s = .next t := by
      rw [exec_encAssemble_of_le src dst hl hf hle, frame]
      rfl
    refine ⟨completed, fun idx hi => exec_encReadByte_beyond_assembled completed (frame ▸ hi), ?_, ?_,
      fun i hi => ?_, fun i hi => ?_⟩
    · rw [← frame, toNat_ofNat_length_frameBytes _ _ _ hl]
    · exact frame ▸ length_frameBytes_le_obufDepth src dst hl hle
    · rw [Memory.read_writeFrom, if_pos (by omega), Nat.sub_zero]
    · rw [Memory.read_writeFrom, if_neg (by omega)]
  · rintro ⟨capacity, checksumEn, addressEn⟩ src dst rfl rfl
    exact ⟨rfl, fun payload => rfl⟩

end Sys2Proof.Machine
end

section
/-! The statements of spec/42_decoder.md on DEC_PUSH_BYTE (R141 to R146, R148) and DEC_CLEAR (R151): what a logical
byte does in each state of a frame, and which moves change the decoder at all. -/

namespace Sys2Proof.Machine

/-! ### The parts of a logical byte's step (R140) -/

/-- The state ENTER_DATA leads to, by the declared length and CHECKSUM_EN (R146). -/
def payloadEntry (p : Params) (len : Half) : DecState :=
  if len ≠ 0 then .data else if p.checksumEn = true then .checksum else .done

/-- ENTER_DATA goes to `payloadEntry`, reports FINISHED when that is DONE, and changes nothing else. -/
theorem DecUnit.enterData_eq (p : Params) (len : Half) (d : DecUnit) :
    d.enterData p len = { d with
      st := payloadEntry p len
      status := if payloadEntry p len = .done then .finished else d.status } := by
  by_cases hl : len = 0
  · cases hc : p.checksumEn <;> simp [DecUnit.enterData, DecUnit.exitData, payloadEntry, hl, hc]
  · rw [DecUnit.enterData, payloadEntry, if_neg hl, if_pos hl]
    rfl

/-- The payload's entry is neither READY nor ERR. -/
theorem payloadEntry_ne (p : Params) (len : Half) :
    payloadEntry p len ≠ .ready ∧ payloadEntry p len ≠ .err := by
  unfold payloadEntry
  split
  · decide
  · split <;> decide

/-- EXIT_DATA does not lead to READY. -/
theorem DecUnit.exitData_st_ne_ready (p : Params) (d : DecUnit) : (d.exitData p).st ≠ .ready := by
  cases hc : p.checksumEn <;> simp [DecUnit.exitData, hc]

section
variable {p : Params} {v : Byte} {d : DecUnit}

/-- A length above CAPACITY (R145). -/
theorem DecUnit.takeSizeLow_of_lt (h : p.capacity < d.lenAcc + v.setWidth 16) :
    d.takeSizeLow p v = { d with
      csumAcc := d.csumAcc + v, lenAcc := d.lenAcc + v.setWidth 16, st := .err, status := .sizeErr } :=
  if_pos h

/-- A length within CAPACITY, with addresses to come (R140). -/
theorem DecUnit.takeSizeLow_of_address (h : d.lenAcc + v.setWidth 16 ≤ p.capacity)
    (ha : p.addressEn = true) :
    d.takeSizeLow p v = { d with
      csumAcc := d.csumAcc + v, lenAcc := d.lenAcc + v.setWidth 16, st := .srcAddrHigh } :=
  (if_neg (BitVec.not_lt.mpr h)).trans (if_pos ha)

/-- A length within CAPACITY, without addresses (R146). -/
theorem DecUnit.takeSizeLow_of_noAddress (h : d.lenAcc + v.setWidth 16 ≤ p.capacity)
    (ha : p.addressEn = false) :
    d.takeSizeLow p v = DecUnit.enterData p (d.lenAcc + v.setWidth 16)
      { d with csumAcc := d.csumAcc + v, lenAcc := d.lenAcc + v.setWidth 16 } :=
  (if_neg (BitVec.not_lt.mpr h)).trans (if_neg (by simp [ha]))

/-- The byte that completes the length, whatever the length: only the sum, the length, `st` and `status` change,
and `st` is decided by CAPACITY, ADDRESS_EN and the payload's entry. -/
theorem DecUnit.takeSizeLow_eq_with (p : Params) (v : Byte) (d : DecUnit) :
    ∃ status, d.takeSizeLow p v = { d with
      csumAcc := d.csumAcc + v
      lenAcc := d.lenAcc + v.setWidth 16
      st := if p.capacity < d.lenAcc + v.setWidth 16 then .err
        else if p.addressEn = true then .srcAddrHigh else payloadEntry p (d.lenAcc + v.setWidth 16)
      status := status } := by
  by_cases hl : p.capacity < d.lenAcc + v.setWidth 16
  · exact ⟨_, by rw [DecUnit.takeSizeLow_of_lt hl, if_pos hl]⟩
  · have hle := BitVec.not_lt.mp hl
    cases ha : p.addressEn with
    | true => exact ⟨_, by rw [DecUnit.takeSizeLow_of_address hle ha, if_neg hl, if_pos rfl]⟩
    | false =>
      exact ⟨_, by rw [DecUnit.takeSizeLow_of_noAddress hle ha, DecUnit.enterData_eq, if_neg hl,
        if_neg Bool.false_ne_true]⟩

/-- A logical byte in SIZE_HIGH (R144). -/
theorem DecUnit.takeLogical_of_sizeHigh (h : d.st = .sizeHigh) :
    DecUnit.takeLogical p v d = some { d.addToSum v with
      lenAcc := accum16 d.lenAcc v true, st := .sizeLow } := by
  simp only [DecUnit.takeLogical, h]

/-- A logical byte in SIZE_LOW (R145). -/
theorem DecUnit.takeLogical_of_sizeLow (h : d.st = .sizeLow) :
    DecUnit.takeLogical p v d = some (d.takeSizeLow p v) := by
  simp only [DecUnit.takeLogical, h]

/-- A logical byte in SRC_ADDR_HIGH (R144). -/
theorem DecUnit.takeLogical_of_srcAddrHigh (h : d.st = .srcAddrHigh) :
    DecUnit.takeLogical p v d = some { d.addToSum v with
      srcAcc := accum16 d.srcAcc v true, st := .srcAddrLow } := by
  simp only [DecUnit.takeLogical, h]

/-- A logical byte in SRC_ADDR_LOW (R144). -/
theorem DecUnit.takeLogical_of_srcAddrLow (h : d.st = .srcAddrLow) :
    DecUnit.takeLogical p v d = some { d.addToSum v with
      srcAcc := accum16 d.srcAcc v false, st := .dstAddrHigh } := by
  simp only [DecUnit.takeLogical, h]

/-- A logical byte in DST_ADDR_HIGH (R144). -/
theorem DecUnit.takeLogical_of_dstAddrHigh (h : d.st = .dstAddrHigh) :
    DecUnit.takeLogical p v d = some { d.addToSum v with
      dstAcc := accum16 d.dstAcc v true, st := .dstAddrLow } := by
  simp only [DecUnit.takeLogical, h]

/-- A logical byte in DST_ADDR_LOW (R144, R146). -/
theorem DecUnit.takeLogical_of_dstAddrLow (h : d.st = .dstAddrLow) :
    DecUnit.takeLogical p v d = some (DecUnit.enterData p d.lenAcc
      { d.addToSum v with dstAcc := accum16 d.dstAcc v false }) := by
  simp only [DecUnit.takeLogical, h]

/-- A logical byte in CHECKSUM (R148). -/
theorem DecUnit.takeLogical_of_checksum (h : d.st = .checksum) :
    DecUnit.takeLogical p v d = some (d.takeChecksum v) := by
  simp only [DecUnit.takeLogical, h]

end

/-! ### DONE and ERR (R141), and what changes the decoder -/

/-- DONE and ERR answer the unchanged status to every byte. -/
theorem exec_decPushByte_of_absorb {s : State} (b : Byte) (h : s.dec.st = .done ∨ s.dec.st = .err) :
    exec (.decPushByte b) s = .next (s.answer ⟨true, s.dec.status.code.setWidth 32⟩) :=
  execDecPushByte_of_push (DecUnit.push_absorb s.params b h)

/-- A command leaves the decoder as it was, or is a DEC_CLEAR, or a DEC_PUSH_BYTE that leaves what the unit's own
step leaves. -/
theorem dec_of_leftBy_exec {i : Instr} {s t : State} (h : leftBy (exec i s) = some t) :
    t.dec = s.dec ∨ i = .decClear ∨ ∃ b r, s.dec.push s.params b = some (t.dec, r) := by
  cases i with
  | decPushByte b =>
    cases hp : s.dec.push s.params b with
    | none =>
      simp only [exec, execDecPushByte, hp] at h
      exact .inl (Option.some.inj h ▸ rfl)
    | some dr =>
      rw [exec, execDecPushByte_of_push hp] at h
      exact .inr (.inr ⟨b, dr.2, Option.some.inj h ▸ hp⟩)
  | decClear => exact .inr (.inl rfl)
  | encAssemble =>
    obtain ⟨-, -, rfl⟩ | ⟨-, -, r, rfl⟩ := leftBy_execEncAssemble h <;> exact .inl rfl
  | encReadLen | encReadByte | decReadStatus | decReadLen | decReadSrc | decReadDst | decReadByte =>
    obtain ⟨r, rfl⟩ := leftBy_exec_of_isReadCommand rfl h
    exact .inl rfl

/-- The next move is `rst` or a DEC_CLEAR. -/
def State.takesResetOrClear (s : State) : Prop :=
  ∃ rest, s.moves = .rst :: rest
    ∨ ∃ cw data, s.moves = .command cw data :: rest ∧ decode cw data = .ok .decClear

/-- A step leaves the decoder as it was or as the unit's own step on a byte leaves it, unless it takes `rst` or a
DEC_CLEAR. -/
theorem dec_of_leftBy_step {s t : State} (h : leftBy (step s) = some t) :
    t.dec = s.dec ∨ (∃ b r, s.dec.push s.params b = some (t.dec, r)) ∨ s.takesResetOrClear := by
  obtain ⟨-, e⟩ | ⟨rest, hm, -⟩ | ⟨cw, data, rest, i, hm, hd, e⟩ | ⟨_, _, rest, _, -, -, e⟩ := step_cases s
  · rw [e] at h
    exact .inl (Option.some.inj h ▸ rfl)
  · exact .inr (.inr ⟨rest, .inl hm⟩)
  · rw [e] at h
    obtain hdec | rfl | hp := dec_of_leftBy_exec h
    · exact .inl hdec
    · exact .inr (.inr ⟨rest, .inr ⟨cw, data, hm, hd⟩⟩)
    · exact .inr (.inl hp)
  · rw [e] at h
    exact .inl (leftBy_refuseCommand h ▸ rfl)

/-- Settles O22: the absorbing rows of R150, and what a step can leave of the decoder. -/
theorem doneAndErrAbsorbBytes : Obligations.DoneAndErrAbsorbBytes := by
  refine ⟨fun s b h => exec_decPushByte_of_absorb b h, fun s t hs h hne => ?_⟩
  obtain hdec | ⟨b, r, hp⟩ | hmove := dec_of_leftBy_step h
  · exact absurd (congrArg DecUnit.st hdec) hne
  · rw [DecUnit.push_absorb s.params b hs, Option.some.injEq, Prod.mk.injEq] at hp
    exact absurd (congrArg DecUnit.st hp.1.symm) hne
  · exact hmove

/-! ### Special characters (R142) and the escape byte (R144) -/

/-- Settles O23: rows 5 and 6 of R150. -/
theorem specialCharacterEntersErr : Obligations.SpecialCharacterEntersErr :=
  fun s _ hm hb => execDecPushByte_of_push (DecUnit.push_special s.params hm hb)

/-- Inside a frame an escape byte only sets `esc`. -/
theorem exec_decPushByte_of_escape {s : State} (hm : midFrame s.dec.st = true) (he : s.dec.esc = false) :
    exec (.decPushByte 0x7D) s
      = .next { s with dec := { s.dec with esc := true }, responses := ⟨true, 1⟩ :: s.responses } :=
  execDecPushByte_of_push (DecUnit.push_escape s.params hm he)

/-! ### READY (R143) -/

/-- In READY the invariant leaves no register but PBUF a choice. -/
theorem DecInv.registers_of_ready {p : Params} {d : DecUnit} (h : DecInv p d) (hs : d.st = .ready) :
    d.esc = false ∧ d.status = .idle ∧ d.lenAcc = 0 ∧ d.srcAcc = 0 ∧ d.dstAcc = 0 ∧ d.csumAcc = 0
      ∧ d.cnt = 0 := by
  have phase := h.phase
  simp only [DecPhase, hs] at phase
  obtain ⟨hstatus, hesc, hlen, hsrc, hdst, hcnt⟩ := phase
  have hsum : d.csumAcc = 0 := by
    rw [h.sum, receivedSum, hlen, hsrc, hdst, hcnt]
    rfl
  exact ⟨hesc, hstatus, hlen, hsrc, hdst, hsum, hcnt⟩

/-- A logical byte inside a frame does not lead back to READY. -/
theorem DecUnit.takeLogical_st_ne_ready {p : Params} {v : Byte} {d e : DecUnit} (hm : midFrame d.st = true)
    (h : DecUnit.takeLogical p v d = some e) : e.st ≠ .ready := by
  cases hs : d.st with
  | ready | done | err => rw [hs] at hm; cases hm
  | sizeHigh | srcAddrHigh | srcAddrLow | dstAddrHigh =>
    simp only [DecUnit.takeLogical, hs] at h
    cases h
    exact nofun
  | sizeLow =>
    obtain ⟨status, e⟩ := DecUnit.takeSizeLow_eq_with p v d
    rw [DecUnit.takeLogical_of_sizeLow hs, e] at h
    cases h
    dsimp only
    split
    · exact nofun
    · split
      · exact nofun
      · exact (payloadEntry_ne _ _).1
  | dstAddrLow =>
    rw [DecUnit.takeLogical_of_dstAddrLow hs, DecUnit.enterData_eq] at h
    cases h
    exact (payloadEntry_ne _ _).1
  | data =>
    rw [DecUnit.takeLogical_of_data hs, DecUnit.takeData] at h
    split at h
    · cases h
      split
      · exact DecUnit.exitData_st_ne_ready _ _
      · exact fun hr => DecState.noConfusion (hs.symm.trans hr)
    · cases h
  | checksum =>
    rw [DecUnit.takeLogical_of_checksum hs, DecUnit.takeChecksum] at h
    split at h <;> cases h <;> exact nofun

/-- A byte does not lead into READY. -/
theorem DecUnit.push_st_ne_ready {p : Params} {b : Byte} {d d' : DecUnit} {r : Status}
    (h : d.push p b = some (d', r)) (hs : d.st ≠ .ready) : d'.st ≠ .ready := by
  obtain ⟨hr, -⟩ | ⟨-, rfl, -⟩ | ⟨-, -, -, rfl⟩ | ⟨-, -, rfl⟩ | ⟨-, -, -, -, rfl⟩ | ⟨hm, -, -, -, hd⟩ :=
    DecUnit.push_cases h
  · exact absurd hr hs
  · exact hs
  · exact nofun
  · exact nofun
  · exact hs
  · exact DecUnit.takeLogical_st_ne_ready (d := { d with esc := false }) hm hd

/-- Settles O24: rows 3 and 4 of R150 with the registers the invariant gives in READY, and what a step can leave
of the decoder. -/
theorem readyWaitsForDelimiter : Obligations.ReadyWaitsForDelimiter := by
  refine ⟨fun s hinv hs => ?_, fun s t h hs ht => ?_⟩
  · have registers := hinv.dec.registers_of_ready hs
    exact ⟨execDecPushByte_of_push (DecUnit.push_ready_flag s.params hs),
      fun b hb => execDecPushByte_of_push (DecUnit.push_ready_other s.params hs registers.1 hb), registers⟩
  · obtain hdec | ⟨b, r, hp⟩ | hmove := dec_of_leftBy_step h
    · exact absurd (hdec ▸ ht) hs
    · exact absurd ht (DecUnit.push_st_ne_ready hp hs)
    · exact hmove

/-! ### The field states (R144 to R146) -/

/-- The byte that completes the length, by the decoder it leaves. -/
theorem exec_decPushByte_of_sizeLow {s : State} {b : Byte} {d : DecUnit} (hs : s.dec.st = .sizeLow)
    (h1 : b ≠ 0x7E) (h2 : b ≠ 0x7D)
    (hd : DecUnit.takeSizeLow s.params (logicalOf s.dec.esc b) { s.dec with esc := false } = d) :
    exec (.decPushByte b) s = .next ({ s with dec := d }.answer ⟨true, d.status.code.setWidth 32⟩) :=
  execDecPushByte_of_other (by rw [hs]; rfl) h1 h2
    ((DecUnit.takeLogical_of_sizeLow (d := { s.dec with esc := false }) hs).trans (congrArg some hd))

/-- Settles O26: one row of R150 for each field state. -/
theorem fieldStatesAccumulate : Obligations.FieldStatesAccumulate := by
  refine ⟨fun s he hs => exec_decPushByte_of_escape ?_ he, fun s b h1 h2 => ?_⟩
  · simp only [List.mem_cons, List.not_mem_nil, or_false] at hs
    obtain hs | hs | hs | hs | hs | hs := hs <;> rw [hs] <;> rfl
  · intro d v sum answer
    refine ⟨fun hs => ?_, fun hs => ?_, fun hs => ?_, fun hs => ?_, fun hs => ?_, fun hs => ?_⟩
    · exact execDecPushByte_of_other (by rw [hs]; rfl) h1 h2
        (DecUnit.takeLogical_of_sizeHigh (d := { d with esc := false }) hs)
    · obtain ⟨status, e⟩ := DecUnit.takeSizeLow_eq_with s.params v { d with esc := false }
      exact ⟨_, exec_decPushByte_of_sizeLow hs h1 h2 e, rfl, rfl, rfl, rfl⟩
    · exact execDecPushByte_of_other (by rw [hs]; rfl) h1 h2
        (DecUnit.takeLogical_of_srcAddrHigh (d := { d with esc := false }) hs)
    · exact execDecPushByte_of_other (by rw [hs]; rfl) h1 h2
        (DecUnit.takeLogical_of_srcAddrLow (d := { d with esc := false }) hs)
    · exact execDecPushByte_of_other (by rw [hs]; rfl) h1 h2
        (DecUnit.takeLogical_of_dstAddrHigh (d := { d with esc := false }) hs)
    · have taken := DecUnit.takeLogical_of_dstAddrLow (p := s.params) (v := v)
        (d := { d with esc := false }) hs
      rw [DecUnit.enterData_eq] at taken
      exact ⟨_, execDecPushByte_of_other (by rw [hs]; rfl) h1 h2 taken, rfl, rfl, rfl, rfl⟩

/-- Settles O27: the length byte by CAPACITY; a length within it leads to an address or to the payload's entry,
neither of them ERR. -/
theorem lengthAboveCapacityIsSizeErr : Obligations.LengthAboveCapacityIsSizeErr := by
  intro s b hs h1 h2 v len
  refine ⟨fun hlt => ?_, fun hle => ?_⟩
  · exact exec_decPushByte_of_sizeLow hs h1 h2
      (DecUnit.takeSizeLow_of_lt (d := { s.dec with esc := false }) hlt)
  · obtain ⟨status, e⟩ := DecUnit.takeSizeLow_eq_with s.params v { s.dec with esc := false }
    rw [if_neg (BitVec.not_lt.mpr hle)] at e
    refine ⟨_, exec_decPushByte_of_sizeLow hs h1 h2 e, ?_, rfl, rfl, rfl⟩
    dsimp only [State.answer]
    split
    · exact nofun
    · exact (payloadEntry_ne _ _).2

/-- The answer to the byte on which the payload is entered, by the state it leads to. -/
theorem next_answer_enterData (s : State) (d : DecUnit) (len : Half) :
    (.next ({ s with dec := d.enterData s.params len }.answer
        ⟨true, (d.enterData s.params len).status.code.setWidth 32⟩) : Host.Outcome State Fault Refusal)
      = if len ≠ 0 then .next { s with
          dec := { d with st := .data }
          responses := ⟨true, d.status.code.setWidth 32⟩ :: s.responses }
        else if s.params.checksumEn = true then .next { s with
          dec := { d with st := .checksum }
          responses := ⟨true, d.status.code.setWidth 32⟩ :: s.responses }
        else .next { s with
          dec := { d with st := .done, status := .finished }
          responses := ⟨true, 2⟩ :: s.responses } := by
  rw [DecUnit.enterData_eq, payloadEntry]
  split
  · rfl
  · split <;> rfl

/-- Settles O28: ENTER_DATA after the low length byte and after the low destination byte, and the address that
comes before it otherwise. -/
theorem payloadIsEnteredByLength : Obligations.PayloadIsEnteredByLength := by
  refine ⟨fun s b hs ha h1 h2 => ?_, fun s b hs h1 h2 => ?_, fun s b hs ha h1 h2 => ?_⟩
  · intro v len d hle
    exact (exec_decPushByte_of_sizeLow hs h1 h2
      (DecUnit.takeSizeLow_of_noAddress (d := { s.dec with esc := false }) hle ha)).trans
      (next_answer_enterData s d len)
  · intro v d
    exact (execDecPushByte_of_other (by rw [hs]; rfl) h1 h2
      (DecUnit.takeLogical_of_dstAddrLow (d := { s.dec with esc := false }) hs)).trans
      (next_answer_enterData s d s.dec.lenAcc)
  · intro v len hle
    exact exec_decPushByte_of_sizeLow hs h1 h2
      (DecUnit.takeSizeLow_of_address (d := { s.dec with esc := false }) hle ha)

/-! ### CHECKSUM (R148) -/

/-- A buffer that holds a value below `n` gives `n` bytes. -/
theorem length_bufferBytes {m : Memory} {n : Nat} (h : ∀ i, i < n → (m.read i).isSome) :
    (bufferBytes m n).length = n := by
  induction n with
  | zero => rfl
  | succ n ih =>
    obtain ⟨v, hv⟩ := Option.isSome_iff_exists.mp (h n (Nat.lt_succ_self n))
    rw [bufferBytes, List.length_append, ih fun i hi => h i (Nat.lt_succ_of_lt hi), hv]
    rfl

/-- The header's sum is that of all six field bytes: without addresses the address bytes are 0 (R30). -/
theorem headerSum_eq_sumBytes {p : Params} {src dst : Half} (len : Half)
    (h : p.addressEn = false → src = 0 ∧ dst = 0) :
    headerSum p len src dst = sumBytes (fieldBytes len ++ fieldBytes src ++ fieldBytes dst) := by
  rw [sumBytes_append, sumBytes_append, sumBytes_fieldBytes, sumBytes_fieldBytes, sumBytes_fieldBytes]
  cases ha : p.addressEn with
  | true => simp [headerSum, ha, BitVec.add_assoc]
  | false =>
    obtain ⟨rfl, rfl⟩ := h ha
    simp [headerSum, ha, hiByte, loByte]

/-- In every state of the invariant the expected checksum is that of what was received (R31). -/
theorem DecInv.allOnes_sub_csumAcc {p : Params} {d : DecUnit} (h : DecInv p d) :
    0xFF - d.csumAcc
      = checksumOf p d.lenAcc d.srcAcc d.dstAcc (bufferBytes d.pbuf d.cnt.toNat) := by
  rw [h.sum, receivedSum, sumBytes_append, checksumOf, headerSum_eq_sumBytes _ h.addresses]

/-- In CHECKSUM the whole payload has been received. -/
theorem DecInv.cnt_of_checksum {p : Params} {d : DecUnit} (h : DecInv p d) (hs : d.st = .checksum) :
    d.cnt = d.lenAcc := by
  have phase := h.phase
  simp only [DecPhase, hs] at phase
  obtain ⟨-, -, -, hcnt⟩ := phase
  exact hcnt

/-- Settles O30: the comparison decides the byte, and the invariant says what the running sum is of. -/
theorem checksumByteDecidesTheFrame : Obligations.ChecksumByteDecidesTheFrame := by
  refine ⟨fun s hs he => exec_decPushByte_of_escape (by rw [hs]; rfl) he, fun s b hs h1 h2 => ?_,
    fun s hinv hs => ?_⟩
  · have pushed := execDecPushByte_of_other (s := s) (by rw [hs]; rfl) h1 h2
      (DecUnit.takeLogical_of_checksum (d := { s.dec with esc := false }) hs)
    by_cases hv : logicalOf s.dec.esc b = 0xFF - s.dec.csumAcc
    · rw [if_pos hv]
      rw [DecUnit.takeChecksum_of_eq (d := { s.dec with esc := false }) hv] at pushed
      exact pushed
    · rw [if_neg hv]
      rw [DecUnit.takeChecksum_of_ne (d := { s.dec with esc := false }) hv] at pushed
      exact pushed
  · rw [← hinv.dec.cnt_of_checksum hs]
    refine ⟨?_, length_bufferBytes hinv.dec.buffer.holds⟩
    rw [hinv.dec.allOnes_sub_csumAcc, hinv.dec.cnt_of_checksum hs]

/-! ### DEC_CLEAR (R151) -/

/-- Settles O33: the cleared unit as one record; its four registers answer 0, and no index lies below its `cnt`. -/
theorem clearRestoresInitialValues : Obligations.ClearRestoresInitialValues :=
  ⟨rfl, fun s => ⟨_, rfl, rfl, rfl, rfl, rfl, rfl, rfl,
    fun idx => respondElement_of_le (m := s.dec.pbuf) (idx := idx) _ (Nat.zero_le _)⟩⟩

end Sys2Proof.Machine
end

section
/-! The statements of spec/60_exceptions.md: what raises AccessOutOfRange (R186), and what brings the decoder out
of ERR and DONE (R192). -/

namespace Sys2Proof.Machine

/-! ### AccessOutOfRange (R186) -/

/-- DEC_READ_BYTE at or above `cnt`. -/
theorem exec_decReadByte_of_le {s : State} {idx : Index} (hi : s.dec.cnt.toNat ≤ idx.toNat) :
    exec (.decReadByte idx) s = .fault (.accessOutOfRange (s.answer ⟨false, 2⟩)) :=
  respondElement_of_le s hi

/-- A buffer that holds a value below the bound raises AccessOutOfRange only at or above it (R53). -/
theorem le_of_respondElement_accessOutOfRange {m : Memory} {bound : Nat} {idx : Index} {s t : State}
    (holds : ∀ i, i < bound → (m.read i).isSome)
    (h : respondElement m bound idx s = .fault (.accessOutOfRange t)) : bound ≤ idx.toNat := by
  by_contra hn
  have hi : idx.toNat < bound := Nat.not_le.mp hn
  obtain ⟨v, hv⟩ := Option.isSome_iff_exists.mp (holds _ hi)
  rw [respondElement_of_read s hi hv] at h
  cases h

/-- The check of the fault flag raises EncSizeViolation only, so AccessOutOfRange comes from what it guards. -/
theorem eq_of_whenEncoderEnabled_accessOutOfRange {o : Host.Outcome State Fault Refusal} {s t : State}
    (h : whenEncoderEnabled s o = .fault (.accessOutOfRange t)) : o = .fault (.accessOutOfRange t) := by
  cases hf : s.enc.encFault with
  | false => rwa [whenEncoderEnabled_of_clear hf] at h
  | true =>
    rw [whenEncoderEnabled_of_set hf] at h
    cases h

/-- A command that ends in AccessOutOfRange is one of the two byte reads, and its buffer read has raised it. -/
theorem exec_accessOutOfRange_cases {i : Instr} {s t : State}
    (h : exec i s = .fault (.accessOutOfRange t)) :
    (∃ idx, i = .encReadByte idx
        ∧ respondElement s.enc.obuf s.enc.olen.toNat idx s = .fault (.accessOutOfRange t))
      ∨ (∃ idx, i = .decReadByte idx
        ∧ respondElement s.dec.pbuf s.dec.cnt.toNat idx s = .fault (.accessOutOfRange t)) := by
  cases i with
  | encReadByte idx => exact .inl ⟨idx, rfl, eq_of_whenEncoderEnabled_accessOutOfRange h⟩
  | decReadByte idx => exact .inr ⟨idx, rfl, h⟩
  | encAssemble len src dst payload =>
    obtain ⟨-, e⟩ | ⟨-, -, e⟩ | ⟨-, -, -, e⟩ := execEncAssemble_cases len src dst payload s <;>
      cases e.symm.trans h
  | encReadLen => cases eq_of_whenEncoderEnabled_accessOutOfRange h
  | decPushByte b =>
    cases hp : s.dec.push s.params b with
    | none =>
      simp only [exec, execDecPushByte, hp] at h
      cases h
    | some dr => cases (execDecPushByte_of_push hp).symm.trans h
  | decClear | decReadStatus | decReadLen | decReadSrc | decReadDst => cases h

/-- Settles O37: an index at or above the bound faults; and only the two byte reads raise the fault, which in a
state of the invariant have a value for every index below the bound. -/
theorem outOfRangeReadsFault : Obligations.OutOfRangeReadsFault := by
  refine ⟨fun s idx => exec_encReadByte_of_le, fun s idx => exec_decReadByte_of_le,
    fun i s t hinv h => ?_⟩
  obtain ⟨idx, hi, hr⟩ | ⟨idx, hi, hr⟩ := exec_accessOutOfRange_cases h
  · exact .inl ⟨idx, hi, le_of_respondElement_accessOutOfRange hinv.enc.buffer.holds hr⟩
  · exact .inr ⟨idx, hi, le_of_respondElement_accessOutOfRange hinv.dec.buffer.holds hr⟩

/-! ### The way out of ERR and DONE (R192) -/

/-- A step from DONE or ERR leaves the decoder as it was, unless it takes `rst` or a DEC_CLEAR. -/
theorem dec_of_leftBy_step_of_absorb {s t : State} (hs : s.dec.st = .done ∨ s.dec.st = .err)
    (h : leftBy (step s) = some t) : t.dec = s.dec ∨ s.takesResetOrClear := by
  obtain hdec | ⟨b, r, hp⟩ | hmove := dec_of_leftBy_step h
  · exact .inl hdec
  · rw [DecUnit.push_absorb s.params b hs, Option.some.injEq, Prod.mk.injEq] at hp
    exact .inl hp.1.symm
  · exact .inr hmove

/-- READY takes the delimiter as the start of a frame (R143). -/
theorem exec_decPushByte_of_ready_flag {s : State} (hs : s.dec.st = .ready) :
    exec (.decPushByte 0x7E) s = .next
      ({ s with dec := { s.dec with st := .sizeHigh, status := .inProgress } }.answer ⟨true, 1⟩) :=
  execDecPushByte_of_push (DecUnit.push_ready_flag s.params hs)

/-- READY with `esc` clear ignores every other byte (R143). -/
theorem exec_decPushByte_of_ready_other {s : State} {b : Byte} (hs : s.dec.st = .ready)
    (he : s.dec.esc = false) (hb : b ≠ 0x7E) :
    exec (.decPushByte b) s = .next (s.answer ⟨true, 0⟩) :=
  execDecPushByte_of_push (DecUnit.push_ready_other s.params hs he hb)

/-- Settles O45: the absorbing rows of R150, and rows 3 and 4 from the READY that DEC_CLEAR leaves, where `esc` is
clear. -/
theorem onlyClearOrResetRecovers : Obligations.OnlyClearOrResetRecovers := by
  refine ⟨fun s t hs => dec_of_leftBy_step_of_absorb hs.symm, fun s => ?_⟩
  have cleared : exec .decClear s = .next ({ s with dec := s.dec.clear }.answer ⟨true, 0⟩) := rfl
  refine ⟨_, _, cleared, s.dec.clear_st, fun b => ?_, exec_decPushByte_of_ready_flag ?_, rfl, rfl⟩
  · exact exec_decPushByte_of_ready_other s.dec.clear_st s.dec.clear_esc
  · exact s.dec.clear_st

end Sys2Proof.Machine
end

section
/-! The statement of spec/70_reset_and_hazards.md on `rst` (R210): the values both units have after it (R37). -/

namespace Sys2Proof.Machine

/-- A step whose next move is `rst` completes with both units reset (R210). -/
theorem step_of_rst {s : State} {rest : List HostMove} (h : s.moves = .rst :: rest) :
    step s = .next { s with moves := rest }.applyReset := by
  simp only [step, takeMove, h]

/-- The encoder's reset values (R37): no frame, no fault, and no value in any element of OBUF. -/
theorem EncUnit.reset_values :
    EncUnit.reset.olen = 0 ∧ EncUnit.reset.encFault = false
      ∧ ∀ i, EncUnit.reset.obuf.read i = none :=
  ⟨rfl, rfl, Memory.read_nil⟩

/-- The decoder's reset values (R37): READY and IDLE, every register 0, and no value in any element of PBUF. -/
theorem DecUnit.reset_values :
    DecUnit.reset.st = .ready ∧ DecUnit.reset.esc = false ∧ DecUnit.reset.lenAcc = 0
      ∧ DecUnit.reset.cnt = 0 ∧ DecUnit.reset.srcAcc = 0 ∧ DecUnit.reset.dstAcc = 0
      ∧ DecUnit.reset.csumAcc = 0 ∧ DecUnit.reset.status = .idle
      ∧ ∀ i, DecUnit.reset.pbuf.read i = none :=
  ⟨rfl, rfl, rfl, rfl, rfl, rfl, rfl, rfl, Memory.read_nil⟩

/-- Settles O38: a step that takes `rst` puts both units at the values the machine's initial state has. -/
theorem resetGivesResetValues : Obligations.ResetGivesResetValues := by
  obtain ⟨holen, hfault, hobuf⟩ := EncUnit.reset_values
  refine ⟨fun s rest h => ⟨_, step_of_rst h, State.applyReset_params _, ?_⟩, ?_⟩
  · exact ⟨holen, hfault, hobuf, DecUnit.reset_values⟩
  · exact ⟨holen, hfault, hobuf, DecUnit.reset_values⟩

end Sys2Proof.Machine
end

section
/-! The statements on the command port's encoding (spec/30_encoding.md R70 to R77): each format's fields read back
from a built word, and a word that decodes rebuilt from its fields. -/

namespace Sys2Proof.Machine

/-! ### Decoding a built word (R70, R71) -/

/-- Format N. -/
theorem decodeN_wordOf (opc : BitVec 4) (i : Instr) : decodeN (wordOf opc 0) [] i = .ok i := by
  rw [decodeN, reservedN, extract_wordOf opc 0 0 48 (by decide)]
  rfl

/-- Format I. -/
theorem decodeI_wordOf (opc : BitVec 4) (idx : Index) (mk : Index → Instr) :
    decodeI (wordOf opc (0#30 ++ idx)) [] mk = .ok (mk idx) := by
  have reserved : reservedI (wordOf opc (0#30 ++ idx)) = 0 :=
    (extract_wordOf opc _ 18 30 (by decide)).trans (extract_append_high _ _)
  have field : idxField (wordOf opc (0#30 ++ idx)) = idx :=
    (extract_wordOf opc _ 0 18 (by decide)).trans (extract_append_low _ _)
  rw [decodeI, if_pos reserved, field, withoutData]

/-- Format B. -/
theorem decodeB_wordOf (opc : BitVec 4) (b : Byte) (mk : Byte → Instr) :
    decodeB (wordOf opc (0#40 ++ b)) [] mk = .ok (mk b) := by
  have reserved : reservedB (wordOf opc (0#40 ++ b)) = 0 :=
    (extract_wordOf opc _ 8 40 (by decide)).trans (extract_append_high _ _)
  have field : byteField (wordOf opc (0#40 ++ b)) = b :=
    (extract_wordOf opc _ 0 8 (by decide)).trans (extract_append_low _ _)
  rw [decodeB, if_pos reserved, field, withoutData]

/-- Format A, with its payload of LEN bytes (R76). -/
theorem decodeA_wordOf (opc : BitVec 4) {len : Half} (src dst : Half) {payload : List Byte}
    (h : payload.length = len.toNat) :
    decodeA (wordOf opc (len ++ src ++ dst)) payload = .ok (.encAssemble len src dst payload) := by
  have hlen : lenField (wordOf opc (len ++ src ++ dst)) = len := by
    rw [lenField, extract_wordOf opc _ 32 16 (by decide), BitVec.extractLsb'_append_eq_of_le (by decide)]
    exact extract_append_high _ _
  have hsrc : srcField (wordOf opc (len ++ src ++ dst)) = src := by
    rw [srcField, extract_wordOf opc _ 16 16 (by decide), BitVec.extractLsb'_append_eq_of_le (by decide)]
    exact extract_append_low _ _
  have hdst : dstField (wordOf opc (len ++ src ++ dst)) = dst :=
    (extract_wordOf opc _ 0 16 (by decide)).trans (extract_append_low _ _)
  rw [decodeA, hlen, hsrc, hdst, if_pos h]

/-- Settles O1: the opcode and RSV of a built word lead to its command's format, which reads the operands back. -/
theorem decodeOfEncodeIsIdentity : Obligations.DecodeOfEncodeIsIdentity := by
  intro i h
  cases i with
  | encAssemble len src dst payload =>
    exact (decode_wordOf _ _ _).trans (decodeA_wordOf 0x1 src dst (eq_of_beq h))
  | decPushByte b => exact (decode_wordOf _ _ _).trans (decodeB_wordOf _ b _)
  | encReadByte idx | decReadByte idx => exact (decode_wordOf _ _ _).trans (decodeI_wordOf _ idx _)
  | encReadLen | decClear | decReadStatus | decReadLen | decReadSrc | decReadDst =>
    exact (decode_wordOf _ _ _).trans (decodeN_wordOf _ _)

/-! ### A word that decodes, rebuilt from its fields (R70, R71) -/

/-- A command without a data phase decodes from an empty one only, to itself. -/
theorem eq_of_withoutData_ok {data : List Byte} {i j : Instr} (h : withoutData data i = .ok j) :
    j = i ∧ data = [] := by
  cases data <;> cases h
  exact ⟨rfl, rfl⟩

/-- What format N accepts. -/
theorem eq_of_decodeN_ok {cw : CmdWord} {data : List Byte} {i j : Instr} (h : decodeN cw data i = .ok j) :
    j = i ∧ data = [] ∧ reservedN cw = 0 := by
  rw [decodeN] at h
  split at h
  · obtain ⟨hj, hdata⟩ := eq_of_withoutData_ok h
    exact ⟨hj, hdata, ‹_›⟩
  · cases h

/-- What format I accepts: the operand area holds the index and zeros. -/
theorem eq_of_decodeI_ok {cw : CmdWord} {data : List Byte} {mk : Index → Instr} {j : Instr}
    (h : decodeI cw data mk = .ok j) :
    j = mk (idxField cw) ∧ data = [] ∧ reservedN cw = 0#30 ++ idxField cw := by
  rw [decodeI] at h
  split at h
  next hzero =>
    obtain ⟨hj, hdata⟩ := eq_of_withoutData_ok h
    have area : reservedI cw ++ idxField cw = reservedN cw := extract_append_extract cw 0 30 18
    exact ⟨hj, hdata, by rw [← area, hzero]; rfl⟩
  next => cases h

/-- What format B accepts: the operand area holds the byte and zeros. -/
theorem eq_of_decodeB_ok {cw : CmdWord} {data : List Byte} {mk : Byte → Instr} {j : Instr}
    (h : decodeB cw data mk = .ok j) :
    j = mk (byteField cw) ∧ data = [] ∧ reservedN cw = 0#40 ++ byteField cw := by
  rw [decodeB] at h
  split at h
  next hzero =>
    obtain ⟨hj, hdata⟩ := eq_of_withoutData_ok h
    have area : reservedB cw ++ byteField cw = reservedN cw := extract_append_extract cw 0 40 8
    exact ⟨hj, hdata, by rw [← area, hzero]; rfl⟩
  next => cases h

/-- What format A accepts: the operand area holds its three fields. -/
theorem eq_of_decodeA_ok {cw : CmdWord} {data : List Byte} {j : Instr} (h : decodeA cw data = .ok j) :
    j = .encAssemble (lenField cw) (srcField cw) (dstField cw) data
      ∧ data.length = (lenField cw).toNat
      ∧ reservedN cw = lenField cw ++ srcField cw ++ dstField cw := by
  rw [decodeA] at h
  split at h
  next hlen =>
    cases h
    have upper : lenField cw ++ srcField cw = cw.extractLsb' 16 32 := extract_append_extract cw 16 16 16
    have area : cw.extractLsb' 16 32 ++ dstField cw = reservedN cw := extract_append_extract cw 0 32 16
    exact ⟨rfl, hlen, by rw [upper, area]⟩
  next => cases h

/-- A word with RSV = 0 is built from its opcode and its operand area. -/
theorem wordOf_eq_of_fields {cw : CmdWord} {opc : BitVec 4} {x : BitVec 48} (hrsv : rsvField cw = 0)
    (hopc : (opcField cw).toNat = opc.toNat) (hx : reservedN cw = x) : wordOf opc x = cw := by
  rw [← hx, ← BitVec.eq_of_toNat_eq hopc, wordOf_fields hrsv]

/-- Settles O2: the format that accepted the word says what its operand area holds, and with the opcode and RSV
the word is rebuilt. -/
theorem encodeOfDecodeIsIdentity : Obligations.EncodeOfDecodeIsIdentity := by
  intro cw data i h
  rw [decode] at h
  split at h
  next hrsv =>
    split at h
    case h_1 hopc =>
      obtain ⟨rfl, hlen, hx⟩ := eq_of_decodeA_ok h
      exact ⟨beq_iff_eq.mpr hlen, wordOf_eq_of_fields hrsv hopc hx, rfl⟩
    case h_4 hopc =>
      obtain ⟨rfl, rfl, hx⟩ := eq_of_decodeB_ok h
      exact ⟨rfl, wordOf_eq_of_fields hrsv hopc hx, rfl⟩
    case h_3 hopc | h_10 hopc =>
      obtain ⟨rfl, rfl, hx⟩ := eq_of_decodeI_ok h
      exact ⟨rfl, wordOf_eq_of_fields hrsv hopc hx, rfl⟩
    case h_2 hopc | h_5 hopc | h_6 hopc | h_7 hopc | h_8 hopc | h_9 hopc =>
      obtain ⟨rfl, rfl, hx⟩ := eq_of_decodeN_ok h
      exact ⟨rfl, wordOf_eq_of_fields hrsv hopc hx, rfl⟩
    case h_11 => cases h
  next => cases h

/-! ### The opcode table (R72) -/

/-- The row of every command is in the table. -/
theorem rowOf_mem_opcodeTable (i : Instr) : rowOf i ∈ opcodeTable := by
  cases i <;> simp [opcodeTable, rowOf]

/-- The encoded word of every command is of its own row. -/
theorem encodeWord_and_mask (i : Instr) : encodeWord i &&& (rowOf i).mask = (rowOf i).pattern := by
  cases i with
  | encAssemble len src dst payload => exact Laws.TableRow.encAssemble len src dst payload
  | encReadLen => exact Laws.TableRow.encReadLen
  | encReadByte idx => exact Laws.TableRow.encReadByte idx
  | decPushByte b => exact Laws.TableRow.decPushByte b
  | decClear => exact Laws.TableRow.decClear
  | decReadStatus => exact Laws.TableRow.decReadStatus
  | decReadLen => exact Laws.TableRow.decReadLen
  | decReadSrc => exact Laws.TableRow.decReadSrc
  | decReadDst => exact Laws.TableRow.decReadDst
  | decReadByte idx => exact Laws.TableRow.decReadByte idx

/-- A word that decodes to a command is of that command's row. -/
theorem and_mask_of_decode_ok {cw : CmdWord} {data : List Byte} {i : Instr} (h : decode cw data = .ok i) :
    cw &&& (rowOf i).mask = (rowOf i).pattern := by
  obtain ⟨-, hword, -⟩ := encodeOfDecodeIsIdentity cw data i h
  rw [← hword]
  exact encodeWord_and_mask i

/-- What a row fixes: the opcode, which is legal, and the reserved bits of its format, which are 0. -/
theorem opcodeTable_fixes : ∀ row ∈ opcodeTable,
    opcField row.mask = 0xF#4
      ∧ ¬ (opcField row.pattern = 0x0 ∨ 0xB#4 ≤ opcField row.pattern)
      ∧ row.mask &&& reservedMask (opcField row.pattern) = reservedMask (opcField row.pattern)
      ∧ row.pattern &&& reservedMask (opcField row.pattern) = 0 := by
  decide

/-- No two rows have one opcode. -/
theorem opcodeTable_injective : ∀ row ∈ opcodeTable, ∀ row' ∈ opcodeTable,
    opcField row.pattern = opcField row'.pattern → row = row' := by
  decide

/-- A word of a row has the row's opcode. -/
theorem opcField_of_and_mask {cw : CmdWord} {row : OpcodeRow} (hrow : row ∈ opcodeTable)
    (h : cw &&& row.mask = row.pattern) : opcField cw = opcField row.pattern := by
  have hmask := (opcodeTable_fixes row hrow).1
  rw [← h, opcField, opcField, BitVec.extractLsb'_and]
  rw [opcField] at hmask
  rw [hmask]
  exact (BitVec.and_allOnes (x := cw.extractLsb' 60 4)).symm

/-- A word of a row has no reserved bit set. -/
theorem and_reservedMask_of_and_mask {cw : CmdWord} {row : OpcodeRow} (hrow : row ∈ opcodeTable)
    (h : cw &&& row.mask = row.pattern) : cw &&& reservedMask (opcField row.pattern) = 0 := by
  obtain ⟨-, -, hmask, hpattern⟩ := opcodeTable_fixes row hrow
  rw [← hmask, ← BitVec.and_assoc, h, hpattern]

/-- Settles O3: a decoded word is rebuilt by its command's encoding, which is of its row; a word of a row is legal,
so it decodes, and to a command of the only row with its opcode. -/
theorem decoderFollowsOpcodeTable : Obligations.DecoderFollowsOpcodeTable := by
  refine ⟨fun cw data i h => ⟨rowOf_mem_opcodeTable i, and_mask_of_decode_ok h⟩,
    fun cw data row hrow h hdata => ?_⟩
  have hopc := opcField_of_and_mask hrow h
  have hreserved := and_reservedMask_of_and_mask hrow h
  obtain ⟨-, hlegal, -, -⟩ := opcodeTable_fixes row hrow
  rw [← hopc] at hreserved hlegal
  obtain ⟨i, hi⟩ := decode_of_legal (by rw [← or_assoc]; exact not_or.mpr ⟨hlegal, not_not.mpr hreserved⟩) hdata
  have hmem := rowOf_mem_opcodeTable i
  have hopc' := opcField_of_and_mask hmem (and_mask_of_decode_ok hi)
  exact ⟨i, hi, opcodeTable_injective _ hmem row hrow (hopc'.symm.trans hopc)⟩

/-! ### Known words, and the step that takes a command (R11) -/

/-- Settles O5: the decoder computed on the eight words. -/
theorem knownWordsDecode : Obligations.KnownWordsDecode := by
  unfold Obligations.KnownWordsDecode
  decide

/-- Settles O6: the oldest move and its decoding decide the step. -/
theorem stepRunsTheDecodedCommand : Obligations.StepRunsTheDecodedCommand := by
  refine ⟨fun s cw data rest i hm hd => ?_, fun s rest hm => step_of_rst hm, fun s hm => ?_⟩
  · simp only [step, takeMove, hm, takeCommand, hd]
  · simp only [step, takeMove, hm]

end Sys2Proof.Machine
end

section
/-! The statements on the block's invariant (spec/10_state.md sections 2 and 3): what holds of the buffers and sums in
every parser state, apart from the registers' relation to that state, and that each unit's operations keep both. -/

namespace Sys2Proof.Machine

/-! ### The running sum (R31) -/

/-- The sum of the six header bytes the decoder has accumulated. -/
def DecUnit.fieldSum (d : DecUnit) : Byte :=
  sumBytes (fieldBytes d.lenAcc) + sumBytes (fieldBytes d.srcAcc) + sumBytes (fieldBytes d.dstAcc)

/-- What `csum_acc` holds is the header's part and the payload's part. -/
theorem receivedSum_eq_fieldSum_add (d : DecUnit) :
    receivedSum d = d.fieldSum + sumBytes (bufferBytes d.pbuf d.cnt.toNat) := by
  simp only [receivedSum, DecUnit.fieldSum, sumBytes_append]

/-- A field of value 0 adds nothing. -/
@[simp] theorem sumBytes_fieldBytes_zero : sumBytes (fieldBytes 0#16) = 0#8 := rfl

/-- The high byte of a field adds itself to the sum. -/
theorem sumBytes_fieldBytes_accum16_high (v : Byte) : sumBytes (fieldBytes (accum16 0#16 v true)) = v := by
  obtain ⟨hhi, hlo⟩ := accum16_high_zero v
  exact (sumBytes_fieldBytes _).trans ((congrArg₂ (· + ·) hhi hlo).trans (add_zero v))

/-- The low byte of a field adds itself to the sum. -/
theorem sumBytes_fieldBytes_accum16_low {acc : Half} (h : loByte acc = 0) (v : Byte) :
    sumBytes (fieldBytes (accum16 acc v false)) = sumBytes (fieldBytes acc) + v := by
  have hhi : hiByte (hiByte acc ++ v) = hiByte acc := extract_append_high _ _
  have hlo : loByte (hiByte acc ++ v) = v := extract_append_low _ _
  rw [accum16_low acc v h, sumBytes_fieldBytes, sumBytes_fieldBytes, hhi, hlo, h, add_zero]

/-! ### The part of the decoder's invariant that does not depend on the parser state -/

/-- `DecInv` without its relation of the registers to `st`. -/
structure DecContents (p : Params) (d : DecUnit) : Prop where
  buffer    : BufferInv d.pbuf p.pbufDepth d.cnt.toNat
  addresses : p.addressEn = false → d.srcAcc = 0 ∧ d.dstAcc = 0
  sum       : d.csumAcc = receivedSum d

/-- The invariant's part that does not depend on the parser state. -/
theorem DecInv.contents {p : Params} {d : DecUnit} (h : DecInv p d) : DecContents p d :=
  ⟨h.buffer, h.addresses, h.sum⟩

/-- The two parts make up the invariant. -/
theorem DecContents.inv {p : Params} {d : DecUnit} (h : DecContents p d) (hp : DecPhase p d) : DecInv p d :=
  ⟨h.buffer, hp, h.addresses, h.sum⟩

/-- A decoder with reset registers meets its invariant, whatever lies in PBUF. -/
theorem decInv_reset_with {p : Params} {m : Memory} (hm : m.wf) (hin : ∀ c ∈ m, c.1 < p.pbufDepth) :
    DecInv p { DecUnit.reset with pbuf := m } where
  buffer := ⟨hm, hin, Nat.zero_le _, fun _ h => absurd h (Nat.not_lt_zero _)⟩
  phase := ⟨rfl, rfl, rfl, rfl, rfl, rfl⟩
  addresses _ := ⟨rfl, rfl⟩
  sum := by simp [receivedSum_eq_fieldSum_add, DecUnit.fieldSum, DecUnit.reset, bufferBytes]

section
variable {p : Params} {d : DecUnit} {v : Byte}

/-- A header byte: the header's sum and the running sum grow alike, and the payload stays. -/
theorem DecContents.add_field {e : DecUnit} (h : DecContents p d) (hpbuf : e.pbuf = d.pbuf)
    (hcnt : e.cnt = d.cnt) (haddr : p.addressEn = false → e.srcAcc = 0 ∧ e.dstAcc = 0)
    (hcsum : e.csumAcc = d.csumAcc + v) (hfield : e.fieldSum = d.fieldSum + v) : DecContents p e where
  buffer := by rw [hpbuf, hcnt]; exact h.buffer
  addresses := haddr
  sum := by
    rw [hcsum, h.sum, receivedSum_eq_fieldSum_add, receivedSum_eq_fieldSum_add, hfield, hpbuf, hcnt]
    exact add_right_comm _ _ _

/-- A payload byte at `cnt`: the buffer and the running sum grow by it. -/
theorem DecContents.add_payload {e : DecUnit} (h : DecContents p d) (hlt : d.cnt.toNat < p.pbufDepth)
    (hpbuf : e.pbuf = d.pbuf.write d.cnt.toNat v) (hcnt : e.cnt.toNat = d.cnt.toNat + 1)
    (hsrc : e.srcAcc = d.srcAcc) (hdst : e.dstAcc = d.dstAcc) (hcsum : e.csumAcc = d.csumAcc + v)
    (hlen : e.lenAcc = d.lenAcc) : DecContents p e where
  buffer := by rw [hpbuf, hcnt]; exact h.buffer.write v hlt
  addresses ha := by rw [hsrc, hdst]; exact h.addresses ha
  sum := by
    have hfield : e.fieldSum = d.fieldSum := by simp only [DecUnit.fieldSum, hlen, hsrc, hdst]
    rw [hcsum, h.sum, receivedSum_eq_fieldSum_add, receivedSum_eq_fieldSum_add, hfield, hpbuf, hcnt,
      bufferBytes_write, sumBytes_append, sumBytes_cons, sumBytes_nil, add_zero, add_assoc]

/-! ### The relation of the registers to the parser state -/

/-- Inside a frame the relation does not speak of `esc`. -/
theorem DecPhase.with_esc (h : DecPhase p d) (hm : midFrame d.st = true) (esc : Bool) :
    DecPhase p { d with esc := esc } := by
  obtain ⟨st, _, _, _, _, _, _, _, _⟩ := d
  cases st with
  | ready | done | err => cases hm
  | sizeHigh | sizeLow | srcAddrHigh | srcAddrLow | dstAddrHigh | dstAddrLow | data | checksum => exact h

/-- Inside a frame the status is IN_PROGRESS. -/
theorem DecPhase.status_of_midFrame (h : DecPhase p d) (hm : midFrame d.st = true) :
    d.status = .inProgress := by
  cases hs : d.st <;> simp only [DecPhase, hs] at h
  case ready | done | err => rw [hs] at hm; cases hm
  all_goals exact h.1

/-- `cnt` never exceeds the declared length. -/
theorem DecPhase.cnt_le_lenAcc (h : DecPhase p d) : d.cnt ≤ d.lenAcc := by
  have of_zero (hz : d.cnt = 0) : d.cnt ≤ d.lenAcc := by rw [hz]; exact Nat.zero_le _
  cases hs : d.st <;> simp only [DecPhase, hs] at h
  case data =>
    obtain ⟨-, -, hlt⟩ := h
    exact BitVec.le_of_lt hlt
  case checksum | done =>
    obtain ⟨-, -, -, hc⟩ := h
    exact BitVec.le_of_eq hc
  case err =>
    obtain ⟨-, ⟨-, -, hz⟩ | ⟨-, -, -, hc⟩ | ⟨-, hc⟩⟩ := h
    · exact of_zero hz
    · exact BitVec.le_of_eq hc
    · exact hc
  all_goals exact of_zero (by simp only [h])

/-- EXIT_DATA, with the whole payload received. -/
theorem decPhase_exitData (hst : d.status = .inProgress) (he : d.esc = false) (hl : d.lenAcc ≤ p.capacity)
    (hc : d.cnt = d.lenAcc) : DecPhase p (d.exitData p) := by
  rw [DecUnit.exitData]
  split
  next hck => exact ⟨hst, hck, hl, hc⟩
  next => exact ⟨rfl, he, hl, hc⟩

/-- ENTER_DATA, with nothing of the payload received. -/
theorem decPhase_enterData (hst : d.status = .inProgress) (he : d.esc = false) (hl : d.lenAcc ≤ p.capacity)
    (hc : d.cnt = 0) : DecPhase p (d.enterData p d.lenAcc) := by
  rw [DecUnit.enterData]
  split
  next hz => exact decPhase_exitData hst he hl (hc.trans hz.symm)
  next hz =>
    have hpos : (0 : Half) < d.lenAcc := (BitVec.pos_iff_ne_zero _).mpr hz
    exact ⟨hst, hl, by rw [hc]; exact hpos⟩

/-! ### One logical byte (R140 step 5) -/

/-- EXIT_DATA changes `st` and `status` only. -/
theorem DecUnit.exitData_eq_with (p : Params) (d : DecUnit) :
    ∃ st status, d.exitData p = { d with st := st, status := status } := by
  unfold DecUnit.exitData
  split
  · exact ⟨_, d.status, rfl⟩
  · exact ⟨_, _, rfl⟩

/-- Entering or leaving the payload keeps the contents. -/
theorem DecContents.exitData (h : DecContents p d) : DecContents p (d.exitData p) := by
  obtain ⟨st, status, e⟩ := DecUnit.exitData_eq_with p d
  rw [e]
  exact ⟨h.buffer, h.addresses, h.sum⟩

/-- Entering the payload keeps the contents. -/
theorem DecContents.enterData (h : DecContents p d) (len : Half) : DecContents p (d.enterData p len) := by
  rw [DecUnit.enterData_eq]
  exact ⟨h.buffer, h.addresses, h.sum⟩

/-- The byte that completes the length (R145, R146). -/
theorem DecInv.takeSizeLow (h : DecInv p d) (hs : d.st = .sizeLow) (he : d.esc = false) :
    DecInv p (d.takeSizeLow p v) := by
  have phase := h.phase
  simp only [DecPhase, hs] at phase
  obtain ⟨hst, hlo, hsrc, hdst, hcnt⟩ := phase
  have contents : DecContents p
      { d with csumAcc := d.csumAcc + v, lenAcc := d.lenAcc + v.setWidth 16 } := by
    refine h.contents.add_field rfl rfl h.addresses rfl ?_
    have hfield := sumBytes_fieldBytes_accum16_low hlo v
    simp only [accum16, Bool.false_eq_true, if_false] at hfield
    simp [DecUnit.fieldSum, hfield, hsrc, hdst]
  by_cases hl : p.capacity < d.lenAcc + v.setWidth 16
  · rw [DecUnit.takeSizeLow_of_lt hl]
    exact ⟨contents.buffer, ⟨he, .inl ⟨rfl, hl, hcnt⟩⟩, contents.addresses, contents.sum⟩
  · have hle := BitVec.not_lt.mp hl
    cases ha : p.addressEn with
    | true =>
      rw [DecUnit.takeSizeLow_of_address hle ha]
      exact ⟨contents.buffer, ⟨hst, ha, hle, hsrc, hdst, hcnt⟩, contents.addresses, contents.sum⟩
    | false =>
      rw [DecUnit.takeSizeLow_of_noAddress hle ha]
      exact (contents.enterData _).inv (decPhase_enterData (p := p)
        (d := { d with csumAcc := d.csumAcc + v, lenAcc := d.lenAcc + v.setWidth 16 }) hst he hle hcnt)

/-- A payload byte (R147). -/
theorem DecInv.takeData {e : DecUnit} (h : DecInv p d) (hs : d.st = .data) (he : d.esc = false)
    (ht : d.takeData p v = some e) : DecInv p e := by
  have phase := h.phase
  simp only [DecPhase, hs] at phase
  obtain ⟨hst, hl, hlt⟩ := phase
  have hcnt : (d.cnt + 1).toNat = d.cnt.toNat + 1 := by bv_omega
  rw [DecUnit.takeData] at ht
  split at ht
  next hroom =>
    have contents : DecContents p
        { d.addToSum v with pbuf := d.pbuf.write d.cnt.toNat v, cnt := d.cnt + 1 } :=
      h.contents.add_payload hroom rfl hcnt rfl rfl rfl rfl
    cases ht
    split
    next hlast =>
      exact contents.exitData.inv
        (decPhase_exitData (p := p) hst he hl (BitVec.eq_of_toNat_eq (hcnt.trans hlast)))
    next hmore =>
      refine contents.inv ?_
      simp only [DecPhase, DecUnit.addToSum, hs]
      exact ⟨hst, hl, by bv_omega⟩
  next => cases ht

/-- The received checksum (R148). -/
theorem DecInv.takeChecksum (h : DecInv p d) (hs : d.st = .checksum) (he : d.esc = false) :
    DecInv p (d.takeChecksum v) := by
  have phase := h.phase
  simp only [DecPhase, hs] at phase
  obtain ⟨-, hck, hl, hc⟩ := phase
  rw [DecUnit.takeChecksum]
  split
  next => exact ⟨h.buffer, ⟨rfl, he, hl, hc⟩, h.addresses, h.sum⟩
  next => exact ⟨h.buffer, ⟨he, .inr (.inl ⟨rfl, hck, hl, hc⟩)⟩, h.addresses, h.sum⟩

/-- A logical byte inside a frame keeps the decoder's invariant. -/
theorem DecInv.takeLogical {e : DecUnit} (h : DecInv p d) (hm : midFrame d.st = true) (he : d.esc = false)
    (ht : DecUnit.takeLogical p v d = some e) : DecInv p e := by
  have phase := h.phase
  cases hs : d.st <;> simp only [DecPhase, hs] at phase
  case ready | done | err => rw [hs] at hm; cases hm
  case sizeHigh =>
    obtain ⟨hst, hlen, hsrc, hdst, hcnt⟩ := phase
    rw [DecUnit.takeLogical_of_sizeHigh hs, hlen] at ht
    cases ht
    refine DecContents.inv (h.contents.add_field rfl rfl h.addresses rfl ?_)
      ⟨hst, (accum16_high_zero v).2, hsrc, hdst, hcnt⟩
    simp [DecUnit.fieldSum, hlen, hsrc, hdst, sumBytes_fieldBytes_accum16_high]
  case sizeLow =>
    rw [DecUnit.takeLogical_of_sizeLow hs] at ht
    cases ht
    exact h.takeSizeLow hs he
  case srcAddrHigh =>
    obtain ⟨hst, ha, hl, hsrc, hdst, hcnt⟩ := phase
    rw [DecUnit.takeLogical_of_srcAddrHigh hs, hsrc] at ht
    cases ht
    refine DecContents.inv (h.contents.add_field rfl rfl (by simp [ha]) rfl ?_)
      ⟨hst, ha, hl, (accum16_high_zero v).2, hdst, hcnt⟩
    simp [DecUnit.fieldSum, hsrc, hdst, sumBytes_fieldBytes_accum16_high]
  case srcAddrLow =>
    obtain ⟨hst, ha, hl, hlo, hdst, hcnt⟩ := phase
    rw [DecUnit.takeLogical_of_srcAddrLow hs] at ht
    cases ht
    refine DecContents.inv (h.contents.add_field rfl rfl (by simp [ha]) rfl ?_) ⟨hst, ha, hl, hdst, hcnt⟩
    simp [DecUnit.fieldSum, hdst, sumBytes_fieldBytes_accum16_low hlo, BitVec.add_assoc]
  case dstAddrHigh =>
    obtain ⟨hst, ha, hl, hdst, hcnt⟩ := phase
    rw [DecUnit.takeLogical_of_dstAddrHigh hs, hdst] at ht
    cases ht
    refine DecContents.inv (h.contents.add_field rfl rfl (by simp [ha]) rfl ?_)
      ⟨hst, ha, hl, (accum16_high_zero v).2, hcnt⟩
    simp [DecUnit.fieldSum, hdst, sumBytes_fieldBytes_accum16_high]
  case dstAddrLow =>
    obtain ⟨hst, ha, hl, hlo, hcnt⟩ := phase
    rw [DecUnit.takeLogical_of_dstAddrLow hs] at ht
    cases ht
    have contents : DecContents p { d.addToSum v with dstAcc := accum16 d.dstAcc v false } := by
      refine h.contents.add_field rfl rfl (by simp [ha]) rfl ?_
      simp [DecUnit.fieldSum, sumBytes_fieldBytes_accum16_low hlo, BitVec.add_assoc]
    exact (contents.enterData _).inv (decPhase_enterData (p := p)
      (d := { d.addToSum v with dstAcc := accum16 d.dstAcc v false }) hst he hl hcnt)
  case data => exact h.takeData hs he ((DecUnit.takeLogical_of_data hs).symm.trans ht)
  case checksum =>
    rw [DecUnit.takeLogical_of_checksum hs] at ht
    cases ht
    exact h.takeChecksum hs he

/-- Inside a frame the invariant does not speak of `esc`. -/
theorem DecInv.with_esc (h : DecInv p d) (hm : midFrame d.st = true) (esc : Bool) :
    DecInv p { d with esc := esc } :=
  ⟨h.buffer, h.phase.with_esc hm esc, h.addresses, h.sum⟩

/-- A byte keeps the decoder's invariant (R150 row by row). -/
theorem DecInv.push {b : Byte} {e : DecUnit} {r : Status} (h : DecInv p d) (hp : d.push p b = some (e, r)) :
    DecInv p e := by
  obtain ⟨hs, he⟩ | ⟨-, rfl, -⟩ | ⟨hs, -, -, rfl⟩ | ⟨-, -, rfl⟩ | ⟨hm, -, -, -, rfl⟩ | ⟨hm, -, -, -, ht⟩ :=
    DecUnit.push_cases hp
  · simp [(h.registers_of_ready hs).1] at he
  · exact h
  · obtain ⟨-, -, hlen, hsrc, hdst, -, hcnt⟩ := h.registers_of_ready hs
    exact ⟨h.buffer, ⟨rfl, hlen, hsrc, hdst, hcnt⟩, h.addresses, h.sum⟩
  · exact ⟨h.buffer, ⟨rfl, .inr (.inr ⟨rfl, h.phase.cnt_le_lenAcc⟩)⟩, h.addresses, h.sum⟩
  · exact h.with_esc hm true
  · exact (h.with_esc hm false).takeLogical hm rfl ht

end

/-! ### The encoder -/

/-- A frame within CAPACITY written to OBUF keeps the encoder's invariant, whatever the flag. -/
theorem EncInv.emit {p : Params} {e : EncUnit} (h : EncInv p e) {len : Half} (src dst : Half)
    {payload : List Byte} (hl : payload.length = len.toNat) (hle : len ≤ p.capacity) :
    EncInv p (e.emit (frameBytes p len src dst payload)) := by
  have hdepth := length_frameBytes_le_obufDepth src dst hl hle
  have holen := toNat_ofNat_length_frameBytes p src dst hl
  refine ⟨⟨Memory.wf_writeFrom _ _ _ h.buffer.sorted, fun c hc => ?_, ?_, fun i hi => ?_⟩, fun _ => ?_⟩
  · obtain hc | hc := Memory.mem_writeFrom _ _ _ c hc
    · omega
    · exact h.buffer.inside c hc
  · rw [EncUnit.emit_olen, holen]
    exact hdepth
  · rw [read_obuf_emit e hl, if_pos hi]
    rw [EncUnit.emit_olen, holen] at hi
    exact Option.isSome_iff_exists.mpr ⟨_, List.getElem?_eq_getElem hi⟩
  · rw [EncUnit.emit_obuf, Memory.read_writeFrom, if_pos (by simp [frameBytes])]
    rfl

/-- ENC_ASSEMBLE that reached the machine has a payload of LEN bytes (R76). -/
theorem length_of_leftBy_encAssemble {len src dst : Half} {payload : List Byte} {s t : State}
    (h : leftBy (execEncAssemble len src dst payload s) = some t) : payload.length = len.toNat := by
  by_contra hl
  rw [execEncAssemble, if_neg hl] at h
  cases h

/-- A command leaves the encoder as it was, or sets the fault flag, or is an ENC_ASSEMBLE that wrote its frame. -/
theorem enc_of_leftBy_exec {i : Instr} {s t : State} (h : leftBy (exec i s) = some t) :
    t.enc = s.enc ∨ t.enc = { s.enc with encFault := true }
      ∨ ∃ len src dst payload, payload.length = len.toNat ∧ len ≤ s.params.capacity
        ∧ t.enc = s.enc.emit (frameBytes s.params len src dst payload) := by
  obtain ⟨r, rfl⟩ | ⟨-, d, rs, rfl⟩ | ⟨_, _, _, _, -, -, -, rfl⟩ |
    ⟨len, src, dst, payload, r, rfl, hf, hle, rfl⟩ := leftBy_exec_cases h
  · exact .inl rfl
  · exact .inl rfl
  · exact .inr (.inl rfl)
  · exact .inr (.inr ⟨len, src, dst, payload, length_of_leftBy_encAssemble h, hle, rfl⟩)

/-! ### Every step (O39, O40) -/

/-- A command, completed or not, keeps the invariant of the block. -/
theorem State.Inv.exec {i : Instr} {s t : State} (hinv : s.Inv) (h : leftBy (exec i s) = some t) : t.Inv := by
  have hp := params_of_leftBy_exec h
  constructor
  · rw [hp]
    obtain e | e | ⟨len, src, dst, payload, hl, hle, e⟩ := enc_of_leftBy_exec h <;> rw [e]
    · exact hinv.enc
    · exact ⟨hinv.enc.buffer, hinv.enc.starts⟩
    · exact hinv.enc.emit src dst hl hle
  · rw [hp]
    obtain e | rfl | ⟨b, r, e⟩ := dec_of_leftBy_exec h
    · rw [e]
      exact hinv.dec
    · cases h
      exact decInv_reset_with hinv.dec.buffer.sorted hinv.dec.buffer.inside
    · exact hinv.dec.push e

/-- Reset units meet the invariant, under any parameters. -/
theorem State.inv_of_reset {s : State} (henc : s.enc = EncUnit.reset) (hdec : s.dec = DecUnit.reset) :
    s.Inv where
  enc := by
    rw [henc]
    exact ⟨⟨Memory.wf_reset.1, fun _ h => absurd h List.not_mem_nil, Nat.zero_le _,
      fun _ h => absurd h (Nat.not_lt_zero _)⟩, fun h => absurd rfl h⟩
  dec := by
    rw [hdec]
    exact decInv_reset_with Memory.wf_reset.2 fun _ h => absurd h List.not_mem_nil

/-- Settles O39: both units of the reset state are reset. -/
theorem resetMeetsTheInvariant : Obligations.ResetMeetsTheInvariant :=
  State.inv_of_reset rfl rfl

/-- Settles O40: a step takes no move, `rst`, a command, or a word it refuses; the commands by what they leave of
each unit. -/
theorem stepKeepsTheInvariant : Obligations.StepKeepsTheInvariant := by
  intro s t hinv h
  obtain ⟨-, e⟩ | ⟨rest, -, e⟩ | ⟨_, _, rest, i, -, -, e⟩ | ⟨_, _, rest, _, -, -, e⟩ := step_cases s <;>
    rw [e] at h
  · cases h
    exact hinv
  · cases h
    exact State.inv_of_reset (State.applyReset_enc _) (State.applyReset_dec _)
  · exact State.Inv.exec (s := { s with moves := rest }) ⟨hinv.enc, hinv.dec⟩ h
  · rw [leftBy_refuseCommand h]
    exact ⟨hinv.enc, hinv.dec⟩

end Sys2Proof.Machine
end

section
/-! The statements derived from the primitives' rules (spec/40_primitives.md) and from ENC_ASSEMBLE's effect
(spec/41_encoder.md): escaped text and its inverse, sums of bytes, the wire length, and the frame of ENC_ASSEMBLE. -/

namespace Sys2Proof.Machine

/-! ### ACCUM16 (R103) -/

/-- The high byte is added at its place, modulo `2^16`. -/
theorem toNat_accum16_high (acc : Half) (v : Byte) :
    (accum16 acc v true).toNat = (acc.toNat + v.toNat * 256) % 65536 := by
  simp [accum16, Nat.shiftLeft_eq]

/-- The low byte is added as it is, modulo `2^16`. -/
theorem toNat_accum16_low (acc : Half) (v : Byte) :
    (accum16 acc v false).toNat = (acc.toNat + v.toNat) % 65536 := by
  simp [accum16]

/-- From an empty accumulator a high and then a low byte give the pair. -/
theorem accum16_accum16 (h l : Byte) : accum16 (accum16 0 h true) l false = h ++ l := by
  obtain ⟨hhi, hlo⟩ := accum16_high_zero h
  rw [accum16_low _ l hlo, hhi]

/-- Settles O9: the two sums as numbers, the pair by R103's low byte onto the high one, and the pair as a number. -/
theorem accumulatorAddsLogicalBytes : Obligations.AccumulatorAddsLogicalBytes := by
  refine ⟨fun acc v => ⟨toNat_accum16_high acc v, toNat_accum16_low acc v⟩,
    fun h l => ⟨accum16_accum16 h l, ?_, ?_⟩, rfl⟩
  · have hor := BitVec.setWidth_append_eq_shiftLeft_setWidth_or (b := h) (b' := l) (w'' := 16)
    rwa [BitVec.setWidth_eq] at hor
  · rw [← toNat_append_bytes]
    exact (h ++ l : Half).isLt

/-! ### Escaped text (R100 to R102) -/

/-- Every escape byte is followed by a byte that is none. -/
def EscapesPaired (l : List Byte) : Prop :=
  ∀ i : Nat, l[i]? = some 0x7D → ∃ c : Byte, l[i + 1]? = some c ∧ c ≠ 0x7D

/-- A byte that is no escape byte in front of paired text. -/
theorem EscapesPaired.cons {l : List Byte} (h : EscapesPaired l) {b : Byte} (hb : b ≠ 0x7D) :
    EscapesPaired (b :: l) := by
  intro i hi
  cases i with
  | zero => exact absurd (Option.some.inj hi) hb
  | succ i => exact h i hi

/-- An escape byte and one that is none in front of paired text. -/
theorem EscapesPaired.cons_escape {l : List Byte} (h : EscapesPaired l) {c : Byte} (hc : c ≠ 0x7D) :
    EscapesPaired (0x7D :: c :: l) := by
  intro i hi
  cases i with
  | zero => exact ⟨c, rfl, hc⟩
  | succ i => exact h.cons hc i hi

/-- Escaped text is paired. -/
theorem escapesPaired_flatMap_escapeByte (bs : List Byte) : EscapesPaired (bs.flatMap escapeByte) := by
  induction bs with
  | nil => exact fun i hi => nomatch hi
  | cons b bs ih =>
    rw [List.flatMap_cons]
    obtain ⟨-, e⟩ | ⟨-, e⟩ | ⟨-, hb, e⟩ := escapeByte_cases b <;> rw [e]
    · exact ih.cons_escape (by decide)
    · exact ih.cons_escape (by decide)
    · exact ih.cons hb

/-- Unescaping one escaped byte in front of a text gives the byte and goes on with the flag clear. -/
theorem unescapeAll_escapeByte_append (b : Byte) (l : List Byte) :
    unescapeAll false (escapeByte b ++ l) = ((unescapeAll false l).1, b :: (unescapeAll false l).2) := by
  obtain ⟨rfl, e⟩ | ⟨rfl, e⟩ | ⟨-, hb, e⟩ := escapeByte_cases b <;> rw [e]
  · rfl
  · rfl
  · simp [unescapeAll, unescapeByte_other false b hb, logicalOf]

/-- Unescaping escaped text gives the text back. -/
theorem unescapeAll_flatMap_escapeByte (bs : List Byte) :
    unescapeAll false (bs.flatMap escapeByte) = (false, bs) := by
  induction bs with
  | nil => rfl
  | cons b bs ih => rw [List.flatMap_cons, unescapeAll_escapeByte_append, ih]

/-- Settles O11: each of the three by induction over the text, one escaped byte at a time. -/
theorem unescapeInvertsEscape : Obligations.UnescapeInvertsEscape := fun bs =>
  ⟨flag_notMem_flatMap_escapeByte bs, escapesPaired_flatMap_escapeByte bs, unescapeAll_flatMap_escapeByte bs⟩

/-! ### Sums of bytes (R104) -/

/-- The address bytes of a frame: source and destination when ADDRESS_EN = 1, nothing otherwise (R78). -/
def addressBytes (p : Params) (src dst : Half) : List Byte :=
  if p.addressEn then fieldBytes src ++ fieldBytes dst else []

/-- The header's sum is the sum of the header's bytes. -/
theorem sumBytes_header (p : Params) (len src dst : Half) :
    sumBytes (fieldBytes len ++ addressBytes p src dst) = headerSum p len src dst := by
  cases ha : p.addressEn <;> simp [addressBytes, headerSum, ha, fieldBytes, add_assoc]

/-- The logical bytes of a frame with checksum: the header, the payload, and the checksum of both. -/
theorem logicalBytes_of_checksum {p : Params} (h : p.checksumEn = true) (len src dst : Half)
    (payload : List Byte) : logicalBytes p len src dst payload
      = fieldBytes len ++ addressBytes p src dst ++ payload ++ [checksumOf p len src dst payload] := by
  rw [logicalBytes, if_pos h, addressBytes]

/-- Replacing a byte takes the old one from the sum and adds the new one. -/
theorem sumBytes_set_add {bs : List Byte} {k : Nat} (hk : k < bs.length) (v : Byte) :
    sumBytes (bs.set k v) + bs[k] = sumBytes bs + v := by
  induction bs generalizing k with
  | nil => exact absurd hk (Nat.not_lt_zero k)
  | cons b bs ih =>
    cases k with
    | zero => simp only [List.set_cons_zero, List.getElem_cons_zero, sumBytes_cons]; ring
    | succ k =>
      simp only [List.set_cons_succ, List.getElem_cons_succ, sumBytes_cons, add_assoc,
        ih (Nat.lt_of_succ_lt_succ hk)]

/-- One byte replaced by another value changes the sum. -/
theorem sumBytes_set_ne {bs : List Byte} {k : Nat} {v : Byte} (hk : k < bs.length) (hv : bs[k]? ≠ some v) :
    sumBytes (bs.set k v) ≠ sumBytes bs := by
  intro heq
  have hadd := sumBytes_set_add hk v
  rw [heq] at hadd
  exact hv (by rw [List.getElem?_eq_getElem hk, add_left_cancel hadd])

/-- Settles O12: the checksum complements the sum of the header and the payload, and a replaced byte shifts a sum
by the difference. -/
theorem frameBytesSumToAllOnes : Obligations.FrameBytesSumToAllOnes := by
  refine ⟨fun p len src dst payload hc => ?_, fun bs k v => sumBytes_set_ne⟩
  rw [logicalBytes_of_checksum hc, sumBytes_append, sumBytes_append, sumBytes_header, sumBytes_cons,
    sumBytes_nil, add_zero, checksumOf, add_sub_cancel]

/-! ### The wire length (R9, R80) -/

/-- OBUF's depth fits an index (R9). -/
theorem obufDepth_lt (p : Params) : p.obufDepth < 2 ^ 18 := by
  have hcap := p.capacity.isLt
  have ha := p.addressEn.toNat_le
  have hc := p.checksumEn.toNat_le
  rw [Params.obufDepth]
  omega

/-- A logical byte takes at least one wire byte (R80). -/
theorem one_le_wireWidth (b : Byte) : 1 ≤ wireWidth b := by
  rw [← length_escapeByte]
  exact length_escapeByte_pos b

/-- Every frame has the delimiter and two length bytes. -/
theorem three_le_length_frameBytes (p : Params) (len src dst : Half) (payload : List Byte) :
    3 ≤ (frameBytes p len src dst payload).length := by
  have hwidth := List.length_le_sum_of_one_le ((logicalBytes p len src dst payload).map wireWidth)
    (List.forall_mem_map.mpr fun b _ => one_le_wireWidth b)
  rw [List.length_map, length_logicalBytes] at hwidth
  rw [length_frameBytes]
  omega

/-- Settles O14: the logical bytes counted, one or two wire bytes for each, and OBUF_DEPTH as the bound. -/
theorem wireLengthIsBounded : Obligations.WireLengthIsBounded := fun p len src dst payload hl =>
  ⟨by rw [length_logicalBytes, hl], length_frameBytes p len src dst payload,
    three_le_length_frameBytes p len src dst payload,
    fun hle => ⟨length_frameBytes_le_obufDepth src dst hl hle, obufDepth_lt p⟩⟩

/-! ### What ENC_ASSEMBLE leaves (R120) -/

/-- Settles O17: the frame and its length follow from the operands and the configuration, and OBUF reads as the
frame below the length. -/
theorem assembleForgetsEarlierFrames : Obligations.AssembleForgetsEarlierFrames := by
  intro s s' t t' len src dst payload hp h h'
  obtain ⟨hl, ht⟩ := enc_of_execEncAssemble_next h
  obtain ⟨-, ht'⟩ := enc_of_execEncAssemble_next h'
  rw [← hp] at ht'
  rw [ht, ht']
  refine ⟨rfl, fun i hi => ?_⟩
  rw [read_obuf_emit s.enc hl, read_obuf_emit s'.enc hl]
  exact (if_pos hi).trans (if_pos hi).symm

/-- A completed ENC_ASSEMBLE has a length within CAPACITY, writes its frame and answers; nothing else changes. -/
theorem eq_of_execEncAssemble_next {len src dst : Half} {payload : List Byte} {s t : State}
    (h : execEncAssemble len src dst payload s = .next t) : len ≤ s.params.capacity
      ∧ ∃ r, t = { s with enc := s.enc.emit (frameBytes s.params len src dst payload) }.answer r := by
  obtain ⟨-, e, -⟩ | ⟨-, hle, ht⟩ := leftBy_execEncAssemble (t := t) (by rw [h, leftBy_next])
  · cases h.symm.trans e
  · exact ⟨hle, ht⟩

/-- Settles O18: ENC_ASSEMBLE leaves its frame in OBUF and one answer. -/
theorem assembleChangesNothingElse : Obligations.AssembleChangesNothingElse := by
  intro s t len src dst payload h
  obtain ⟨-, r, rfl⟩ := eq_of_execEncAssemble_next h
  refine ⟨rfl, rfl, rfl, rfl, rfl, fun a ha => ?_⟩
  rw [State.answer_enc, EncUnit.emit_obuf, Memory.read_writeFrom, if_neg (by omega)]

end Sys2Proof.Machine
end

section
/-! The statements on whole frames (spec/42_decoder.md section 4, spec/40_primitives.md section 4): the walk of a
frame's logical bytes from the delimiter to the payload's end, what its run of wire bytes leaves, and LOOPBACK
(spec/30_encoding.md R86). -/

namespace Sys2Proof.Machine

/-! ### The decoder along a frame -/

/-- A frame begun: the delimiter has been taken, and PBUF holds stale contents (R143). -/
def DecUnit.started (stale : Memory) : DecUnit :=
  { DecUnit.reset with st := .sizeHigh, status := .inProgress, pbuf := stale }

/-- An address as the decoder holds it: 0 when ADDRESS_EN = 0 (R30). -/
def heldAddress (p : Params) (a : Half) : Half := if p.addressEn then a else 0

/-- The whole header received, before ENTER_DATA (R146). -/
def DecUnit.headed (p : Params) (len src dst : Half) (stale : Memory) : DecUnit :=
  { DecUnit.started stale with
    lenAcc := len
    srcAcc := heldAddress p src
    dstAcc := heldAddress p dst
    csumAcc := headerSum p len src dst }

/-- The whole payload received too, and the checksum still to come (R147). -/
def DecUnit.loaded (p : Params) (len src dst : Half) (payload : List Byte) (stale : Memory) : DecUnit :=
  { DecUnit.headed p len src dst stale with
    st := .checksum
    cnt := len
    csumAcc := headerSum p len src dst + sumBytes payload
    pbuf := stale.writeFrom 0 payload }

/-- EXIT_DATA does not look at `st`. -/
theorem DecUnit.exitData_with_st (p : Params) (d : DecUnit) (st : DecState) :
    DecUnit.exitData p { d with st := st } = d.exitData p := by
  unfold DecUnit.exitData
  split <;> rfl

section
variable {p : Params} {d : DecUnit} (v : Half)

/-- A field's two bytes accumulate to the field (R103). -/
theorem accum16_accum16_bytes (v : Half) : accum16 (accum16 0 (hiByte v) true) (loByte v) false = v :=
  (accum16_accum16 _ _).trans (hiByte_append_loByte v)

/-- The two length bytes lead to SIZE_ERR, to the addresses, or to the payload's entry (R145, R146). -/
theorem walk_length (ha : d.awaits) (hs : d.st = .sizeHigh) (hz : d.lenAcc = 0) :
    Walk p d (fieldBytes v)
      (let e := { d with lenAcc := v, csumAcc := d.csumAcc + (hiByte v + loByte v) }
       if p.capacity < v then e.recordError .sizeErr
       else if p.addressEn then { e with st := .srcAddrHigh } else e.enterData p v) := by
  obtain ⟨hm, he, hst⟩ := ha
  refine .cons ⟨hm, he, hst⟩ (DecUnit.takeLogical_of_sizeHigh hs) (.one ⟨rfl, he, hst⟩ ?_)
  rw [DecUnit.takeLogical_of_sizeLow rfl, DecUnit.takeSizeLow, hz]
  simp only [DecUnit.addToSum, accum16_accum16_bytes, add_assoc, DecUnit.recordError, DecUnit.enterData_eq]

/-- The two source bytes (R144). -/
theorem walk_source (ha : d.awaits) (hs : d.st = .srcAddrHigh) (hz : d.srcAcc = 0) :
    Walk p d (fieldBytes v)
      { d with st := .dstAddrHigh, srcAcc := v, csumAcc := d.csumAcc + (hiByte v + loByte v) } := by
  obtain ⟨hm, he, hst⟩ := ha
  refine .cons ⟨hm, he, hst⟩ (DecUnit.takeLogical_of_srcAddrHigh hs) (.one ⟨rfl, he, hst⟩ ?_)
  rw [DecUnit.takeLogical_of_srcAddrLow rfl, hz]
  simp only [DecUnit.addToSum, accum16_accum16_bytes, add_assoc]

/-- The two destination bytes lead to the payload's entry (R144, R146). -/
theorem walk_destination (ha : d.awaits) (hs : d.st = .dstAddrHigh) (hz : d.dstAcc = 0) :
    Walk p d (fieldBytes v)
      (DecUnit.enterData p d.lenAcc
        { d with dstAcc := v, csumAcc := d.csumAcc + (hiByte v + loByte v) }) := by
  obtain ⟨hm, he, hst⟩ := ha
  refine .cons ⟨hm, he, hst⟩ (DecUnit.takeLogical_of_dstAddrHigh hs) (.one ⟨rfl, he, hst⟩ ?_)
  rw [DecUnit.takeLogical_of_dstAddrLow rfl, hz]
  simp only [DecUnit.addToSum, accum16_accum16_bytes, add_assoc, DecUnit.enterData_eq]

end

section
variable {p : Params} {len : Half} (src dst : Half) (payload : List Byte) (stale : Memory)

/-- The header of a frame within CAPACITY leads to the payload's entry. -/
theorem walk_header (hle : len ≤ p.capacity) :
    Walk p (.started stale) (fieldBytes len ++ addressBytes p src dst)
      ((DecUnit.headed p len src dst stale).enterData p len) := by
  have length := walk_length (p := p) (d := .started stale) len ⟨rfl, rfl, rfl⟩ rfl rfl
  simp only [if_neg (BitVec.not_lt.mpr hle)] at length
  cases ha : p.addressEn with
  | false =>
    rw [addressBytes, if_neg (by simp [ha]), List.append_nil]
    convert length using 1
    simp [ha, DecUnit.headed, heldAddress, headerSum, DecUnit.started, DecUnit.reset]
  | true =>
    rw [addressBytes, if_pos ha, ← List.append_assoc]
    rw [if_pos ha] at length
    have source := length.append (walk_source src ⟨rfl, rfl, rfl⟩ rfl rfl)
    convert source.append (walk_destination dst ⟨rfl, rfl, rfl⟩ rfl rfl) using 1
    simp [ha, DecUnit.headed, heldAddress, headerSum, DecUnit.started, DecUnit.reset, DecUnit.enterData_eq,
      add_assoc]

/-- The header and the payload of a frame within CAPACITY lead to the payload's exit. -/
theorem walk_loaded (hl : payload.length = len.toNat) (hle : len ≤ p.capacity) :
    Walk p (.started stale) (fieldBytes len ++ addressBytes p src dst ++ payload)
      ((DecUnit.loaded p len src dst payload stale).exitData p) := by
  have header := walk_header src dst stale hle
  by_cases hz : len = 0
  · subst hz
    obtain rfl := List.eq_nil_of_length_eq_zero hl
    rw [List.append_nil]
    rw [DecUnit.enterData, if_pos rfl] at header
    convert header using 1
    rw [← DecUnit.exitData_with_st p (DecUnit.headed p 0 src dst stale) .checksum]
    simp [DecUnit.loaded, DecUnit.headed, DecUnit.started, DecUnit.reset, Memory.writeFrom]
  · have hne : payload ≠ [] := by
      rintro rfl
      exact hz (BitVec.eq_of_toNat_eq hl.symm)
    rw [DecUnit.enterData, if_neg hz] at header
    have rest := walk_payload p payload { DecUnit.headed p len src dst stale with st := .data } rfl rfl rfl hne
      hle ((Nat.zero_add _).trans hl)
    convert header.append rest using 1
    rw [← DecUnit.exitData_with_st p _ .data]
    rfl

/-- The logical bytes of a frame without checksum: the header and the payload. -/
theorem logicalBytes_of_noChecksum (h : p.checksumEn = false) :
    logicalBytes p len src dst payload = fieldBytes len ++ addressBytes p src dst ++ payload := by
  simp [logicalBytes, addressBytes, h]

/-- A frame without checksum ends in DONE. -/
theorem walk_frame_of_noChecksum (hck : p.checksumEn = false) (hl : payload.length = len.toNat)
    (hle : len ≤ p.capacity) :
    Walk p (.started stale) (fieldBytes len ++ addressBytes p src dst ++ payload)
      { DecUnit.loaded p len src dst payload stale with st := .done, status := .finished } := by
  have loaded := walk_loaded src dst payload stale hl hle
  rwa [DecUnit.exitData, if_neg (by simp [hck])] at loaded

/-- A frame with checksum ends as its last byte decides. -/
theorem walk_frame_of_checksum (hck : p.checksumEn = true) (hl : payload.length = len.toNat)
    (hle : len ≤ p.capacity) (c : Byte) :
    Walk p (.started stale) (fieldBytes len ++ addressBytes p src dst ++ payload ++ [c])
      (DecUnit.takeChecksum c (DecUnit.loaded p len src dst payload stale)) := by
  have loaded := walk_loaded src dst payload stale hl hle
  rw [DecUnit.exitData, if_pos hck] at loaded
  exact loaded.append (.one ⟨rfl, rfl, rfl⟩ (DecUnit.takeLogical_of_checksum rfl))

/-- The walk of a correct frame: DONE, with everything received. -/
theorem walk_logicalBytes (hl : payload.length = len.toNat) (hle : len ≤ p.capacity) :
    Walk p (.started stale) (logicalBytes p len src dst payload)
      { DecUnit.loaded p len src dst payload stale with st := .done, status := .finished } := by
  cases hck : p.checksumEn with
  | false =>
    rw [logicalBytes_of_noChecksum src dst payload hck]
    exact walk_frame_of_noChecksum src dst payload stale hck hl hle
  | true =>
    rw [logicalBytes_of_checksum hck]
    have frame := walk_frame_of_checksum src dst payload stale hck hl hle (checksumOf p len src dst payload)
    rwa [DecUnit.takeChecksum_of_eq (v := checksumOf p len src dst payload) rfl] at frame

/-- The walk of a frame with another checksum than its own: CHECKSUM_ERR, with everything received. -/
theorem walk_frame_of_wrong_checksum (hck : p.checksumEn = true) (hl : payload.length = len.toNat)
    (hle : len ≤ p.capacity) {c : Byte} (hc : c ≠ checksumOf p len src dst payload) :
    Walk p (.started stale) (fieldBytes len ++ addressBytes p src dst ++ payload ++ [c])
      ((DecUnit.loaded p len src dst payload stale).recordError .checksumErr) := by
  have frame := walk_frame_of_checksum src dst payload stale hck hl hle c
  rwa [DecUnit.takeChecksum_of_ne hc] at frame

end

/-! ### The run of a frame's wire bytes -/

/-- A buffer that reads as a list below `n` gives the list's first `n` bytes. -/
theorem bufferBytes_eq_take {m : Memory} {vs : List Byte} {n : Nat} (h : ∀ i, i < n → m.read i = vs[i]?) :
    bufferBytes m n = vs.take n := by
  induction n with
  | zero => rfl
  | succ n ih =>
    rw [bufferBytes, ih fun i hi => h i (Nat.lt_succ_of_lt hi), h n (Nat.lt_succ_self n), List.take_add_one]

/-- A payload written from 0 is what the buffer then holds below its length. -/
theorem bufferBytes_writeFrom (m : Memory) {vs : List Byte} {n : Nat} (h : vs.length = n) :
    bufferBytes (m.writeFrom 0 vs) n = vs := by
  rw [bufferBytes_eq_take fun i hi => by rw [Memory.read_writeFrom, if_pos (by omega), Nat.sub_zero], ← h,
    List.take_length]

/-- In a state of the invariant READY has reset registers. -/
theorem DecInv.eq_reset_with {p : Params} {d : DecUnit} (h : DecInv p d) (hs : d.st = .ready) :
    d = { DecUnit.reset with pbuf := d.pbuf } := by
  obtain ⟨he, hst, hlen, hsrc, hdst, hsum, hcnt⟩ := h.registers_of_ready hs
  cases d
  simp only at he hst hlen hsrc hdst hsum hcnt hs
  subst he hst hlen hsrc hdst hsum hcnt hs
  rfl

/-- The delimiter and the wire bytes of a walk, pushed in READY: IN_PROGRESS for every byte before the last, then
the status the walk ends with. -/
theorem execAll_push_frame {s : State} {vs : List Byte} {e : DecUnit} (hinv : DecInv s.params s.dec)
    (hs : s.dec.st = .ready) (h : Walk s.params (.started s.dec.pbuf) vs e) :
    execAll (decPushBytes (0x7E :: vs.flatMap escapeByte)) s = .next { s with
      dec := e
      responses := ⟨true, e.status.code.setWidth 32⟩
        :: (List.replicate (vs.flatMap escapeByte).length ⟨true, 1⟩ ++ s.responses) } := by
  have begun : ({ s.dec with st := .sizeHigh, status := .inProgress } : DecUnit) = .started s.dec.pbuf := by
    rw [hinv.eq_reset_with hs]
    rfl
  have delimiter : execAll (decPushBytes [0x7E]) s
      = .next ({ s with dec := .started s.dec.pbuf }.answer ⟨true, 1⟩) := by
    rw [← begun]
    simp only [decPushBytes, List.map, execAll, exec_decPushByte_of_ready_flag hs]
  rw [← List.singleton_append, decPushBytes_append, execAll_append_of_next delimiter,
    h.run (({ s with dec := .started s.dec.pbuf } : State).answer ⟨true, 1⟩) rfl rfl]
  have hpos := h.length_pos
  generalize (vs.flatMap escapeByte).length = n at hpos ⊢
  obtain ⟨n, rfl⟩ : ∃ k, n = k + 1 := ⟨n - 1, by omega⟩
  rw [List.replicate_succ', List.append_assoc]
  rfl

/-! ### Frames that are accepted or refused (R145, R148) -/

/-- Settles O48: the run of the frame's walk from READY. -/
theorem everyFrameDecodesToItsPayload : Obligations.EveryFrameDecodesToItsPayload := by
  intro s len src dst payload hinv hs hl hle
  refine ⟨_, execAll_push_frame hinv.dec hs (walk_logicalBytes src dst payload _ hl hle), rfl, rfl, rfl,
    bufferBytes_writeFrom _ hl, fun ha => ⟨if_pos ha, if_pos ha⟩, fun ha => ?_, rfl⟩
  have hne : ¬ s.params.addressEn = true := by simp [ha]
  exact ⟨if_neg hne, if_neg hne⟩

/-- Settles O47: the walk of the two length bytes from READY. -/
theorem oversizeFrameIsRejected : Obligations.OversizeFrameIsRejected := by
  intro s len hinv hs hlt
  have walk := walk_length (p := s.params) (d := .started s.dec.pbuf) len ⟨rfl, rfl, rfl⟩ rfl rfl
  simp only [if_pos hlt] at walk
  exact ⟨_, execAll_push_frame hinv.dec hs walk, rfl, rfl, rfl, rfl, rfl, _, rfl⟩

/-- Another sum of the header and the payload gives another checksum. -/
theorem checksumOf_ne_of_sum_ne {p : Params} {len src dst len' src' dst' : Half} {payload payload' : List Byte}
    (h : headerSum p len src dst + sumBytes payload ≠ headerSum p len' src' dst' + sumBytes payload') :
    checksumOf p len src dst payload ≠ checksumOf p len' src' dst' payload' :=
  fun heq => h (sub_right_inj.mp heq)

/-- The run of a frame with another checksum than its own ends in CHECKSUM_ERR. -/
theorem execAll_push_wrong_checksum {s : State} {len : Half} (src dst : Half) {payload : List Byte} {c : Byte}
    (hinv : s.Inv) (hs : s.dec.st = .ready) (hck : s.params.checksumEn = true)
    (hl : payload.length = len.toNat) (hle : len ≤ s.params.capacity)
    (hc : c ≠ checksumOf s.params len src dst payload) :
    ∃ t, execAll (decPushBytes (0x7E :: (fieldBytes len ++ addressBytes s.params src dst ++ payload
          ++ [c]).flatMap escapeByte)) s = .next t
      ∧ t.dec = (DecUnit.loaded s.params len src dst payload s.dec.pbuf).recordError .checksumErr
      ∧ lastData t = 4 :=
  ⟨_, execAll_push_frame hinv.dec hs (walk_frame_of_wrong_checksum src dst payload _ hck hl hle hc), rfl, rfl⟩

/-- Settles O50: a changed payload byte changes the sum, so the frame's checksum is wrong for it. -/
theorem oneChangedPayloadByteIsDetected : Obligations.OneChangedPayloadByteIsDetected := by
  intro s len src dst payload k v hinv hs hck hl hle hk hv
  have hl' : (payload.set k v).length = len.toNat := List.length_set.trans hl
  have wrong : checksumOf s.params len src dst payload ≠ checksumOf s.params len src dst (payload.set k v) :=
    checksumOf_ne_of_sum_ne fun heq => sumBytes_set_ne hk hv (add_left_cancel heq).symm
  obtain ⟨t, hrun, hdec, hlast⟩ := execAll_push_wrong_checksum src dst hinv hs hck hl' hle wrong
  refine ⟨t, hrun, ?_, ?_, ?_, hlast⟩ <;> rw [hdec]
  · rfl
  · rfl
  · exact bufferBytes_writeFrom _ hl'

/-- Four bytes are the bytes of two addresses. -/
theorem exists_addresses {bs : List Byte} (h : bs.length = 4) :
    ∃ src dst : Half, fieldBytes src ++ fieldBytes dst = bs := by
  obtain ⟨a, b, c, d, rfl⟩ := List.length_eq_four.mp h
  have bytes (h l : Byte) : fieldBytes (h ++ l) = [h, l] := by
    rw [fieldBytes, hiByte, loByte, extract_append_high, extract_append_low]
  exact ⟨a ++ b, c ++ d, by rw [bytes, bytes]; rfl⟩

/-- Settles O52: a changed address byte makes other addresses of another sum, so the frame's checksum is wrong for
them. -/
theorem oneChangedAddressByteIsDetected : Obligations.OneChangedAddressByteIsDetected := by
  intro s len src dst payload k v hinv hs hck ha hl hle hk hv
  obtain ⟨src', dst', hset⟩ := exists_addresses (bs := (fieldBytes src ++ fieldBytes dst).set k v)
    List.length_set
  have address (a b : Half) : addressBytes s.params a b = fieldBytes a ++ fieldBytes b := if_pos ha
  have hsum : sumBytes (fieldBytes src' ++ fieldBytes dst') ≠ sumBytes (fieldBytes src ++ fieldBytes dst) :=
    hset ▸ sumBytes_set_ne hk hv
  have wrong : checksumOf s.params len src dst payload ≠ checksumOf s.params len src' dst' payload := by
    refine checksumOf_ne_of_sum_ne fun heq => hsum ?_
    have hheader := add_right_cancel heq
    rw [← sumBytes_header, ← sumBytes_header, sumBytes_append, sumBytes_append (fieldBytes len), address,
      address] at hheader
    exact (add_left_cancel hheader).symm
  obtain ⟨t, hrun, hdec, hlast⟩ := execAll_push_wrong_checksum src' dst' hinv hs hck hl hle wrong
  rw [address, hset] at hrun
  refine ⟨t, hrun, ?_, ?_, ?_, ?_, hlast⟩ <;> rw [hdec]
  · rfl
  · rfl
  · rw [← hset, DecUnit.recordError_srcAcc, DecUnit.recordError_dstAcc]
    simp only [DecUnit.loaded, DecUnit.headed, heldAddress, if_pos ha]
  · exact bufferBytes_writeFrom _ hl

/-! ### LOOPBACK (R86) -/

/-- The encoder answers reads, and OBUF holds the given bytes of its frame from an index on. -/
structure EncUnit.Offers (e : EncUnit) (i : Nat) (bs : List Byte) : Prop where
  enabled : e.encFault = false
  inside  : i + bs.length ≤ e.olen.toNat
  holds   : ∀ k v, bs[k]? = some v → e.obuf.read (i + k) = some v

/-- Behind the first byte offered lies the rest. -/
theorem EncUnit.Offers.tail {e : EncUnit} {i : Nat} {b : Byte} {bs : List Byte} (h : e.Offers i (b :: bs)) :
    e.Offers (i + 1) bs where
  enabled := h.enabled
  inside := by
    have := h.inside
    rw [List.length_cons] at this
    omega
  holds k v hk := by
    rw [Nat.add_right_comm]
    exact h.holds (k + 1) v hk

/-- A round of LOOPBACK reads the byte offered and pushes it. -/
theorem loopbackRound_of_offers {s : State} {i : Nat} {b : Byte} {bs : List Byte} (h : s.enc.Offers i (b :: bs)) :
    loopbackRound i s = exec (.decPushByte b) (s.answer ⟨true, b.setWidth 32⟩) := by
  have hi : i < s.enc.olen.toNat := by
    have := h.inside
    rw [List.length_cons] at this
    omega
  have hidx : (BitVec.ofNat 18 i).toNat = i := by
    rw [BitVec.toNat_ofNat, Nat.mod_eq_of_lt (Nat.lt_trans hi s.enc.olen.isLt)]
  have read : exec (.encReadByte (BitVec.ofNat 18 i)) s = .next (s.answer ⟨true, b.setWidth 32⟩) :=
    exec_encReadByte_of_read h.enabled (by rwa [hidx]) (by rw [hidx]; exact h.holds 0 b rfl)
  have hbyte : (b.setWidth 32).setWidth 8 = b := by
    rw [BitVec.setWidth_setWidth_of_le b (by decide), BitVec.setWidth_eq]
  simp only [loopbackRound, read, lastData, State.answer_responses, hbyte]

/-- LOOPBACK over the bytes offered does to the decoder what pushing them does, and nothing to the encoder. -/
theorem loopbackFrom_of_offers {bs : List Byte} {s t u : State} {i : Nat} (h : s.enc.Offers i bs)
    (hdec : t.dec = s.dec) (hp : t.params = s.params) (hrun : execAll (decPushBytes bs) t = .next u) :
    ∃ w, loopbackFrom bs.length i s = .next w ∧ w.enc = s.enc ∧ w.dec = u.dec := by
  induction bs generalizing s t i with
  | nil =>
    cases hrun
    exact ⟨s, rfl, rfl, hdec.symm⟩
  | cons b bs ih =>
    simp only [decPushBytes, List.map_cons, execAll] at hrun
    split at hrun
    next t' hpush =>
      obtain ⟨d, r, hd, rfl⟩ := execDecPushByte_next hpush
      rw [hdec, hp] at hd
      have round := (loopbackRound_of_offers h).trans
        (execDecPushByte_of_push (s := s.answer ⟨true, b.setWidth 32⟩) hd)
      simp only [List.length_cons, loopbackFrom, round]
      exact ih (s := ({ s.answer ⟨true, b.setWidth 32⟩ with dec := d } : State).answer _)
        (t := ({ t with dec := d } : State).answer _) h.tail rfl hp hrun
    next => cases hrun
    next => cases hrun

/-- LOOPBACK pushes the whole frame the encoder offers. -/
theorem loopback_of_offers {bs : List Byte} {s t u : State} (h : s.enc.Offers 0 bs)
    (holen : s.enc.olen.toNat = bs.length) (hdec : t.dec = s.dec) (hp : t.params = s.params)
    (hrun : execAll (decPushBytes bs) t = .next u) :
    ∃ w, loopback s = .next w ∧ w.enc = s.enc ∧ w.dec = u.dec := by
  have hlen : (s.enc.olen.setWidth 32).toNat = bs.length := by
    rw [BitVec.toNat_setWidth_of_le (by decide), holen]
  simp only [loopback, exec_encReadLen_of_clear h.enabled, lastData, State.answer_responses, hlen]
  exact loopbackFrom_of_offers (s := s.answer _) h hdec hp hrun

/-- A completed ENC_ASSEMBLE offers its frame. -/
theorem offers_of_execEncAssemble_next {len src dst : Half} {payload : List Byte} {s t : State}
    (h : execEncAssemble len src dst payload s = .next t) :
    t.enc.Offers 0 (frameBytes s.params len src dst payload) where
  enabled := encFault_of_execEncAssemble_next h
  inside := by rw [Nat.zero_add, toNat_olen_of_execEncAssemble_next h]
  holds k v hv := by
    obtain ⟨hl, henc⟩ := enc_of_execEncAssemble_next h
    have hk : k < t.enc.olen.toNat := by
      rw [toNat_olen_of_execEncAssemble_next h]
      exact (List.getElem?_eq_some_iff.mp hv).1
    rw [henc] at hk ⊢
    rw [Nat.zero_add, read_obuf_emit s.enc hl, if_pos hk, hv]

/-- Settles O49: LOOPBACK pushes the frame that ENC_ASSEMBLE left, and the frame decodes by O48. -/
theorem loopbackDeliversThePayload : Obligations.LoopbackDeliversThePayload := by
  intro s t len src dst payload hinv hs h
  obtain ⟨hl, -⟩ := enc_of_execEncAssemble_next h
  obtain ⟨hle, r, ht⟩ := eq_of_execEncAssemble_next h
  obtain ⟨u, hrun, hst, hstatus, hlen, hpayload, haddr, -, -⟩ :=
    everyFrameDecodesToItsPayload s len src dst payload hinv hs hl hle
  obtain ⟨w, hw, henc, hdec⟩ := loopback_of_offers (offers_of_execEncAssemble_next h)
    (toNat_olen_of_execEncAssemble_next h) (by rw [ht]; rfl) (by rw [ht]; rfl) hrun
  rw [← hdec] at hst hstatus hlen hpayload haddr
  exact ⟨w, hw, henc, hst, hstatus, hlen, hpayload, haddr⟩

end Sys2Proof.Machine
end

section
/-! The statements on the two units (spec/20_memory.md section 5, spec/60_exceptions.md section 2,
spec/70_reset_and_hazards.md section 1): what a command does as a function of its own unit and the parameters, and
that two decoders of one view do alike. -/

namespace Sys2Proof.Machine

/-! ### The effect of a command on its unit -/

/-- From every state of a kind `f` does one thing: it leaves the state written by `write` with the same new answers,
and always or never completes; completing it gives one answer. -/
structure HasEffect (f : State → Host.Outcome State Fault Refusal) (kind : State → Prop)
    (write : State → State) (given : List Response) (c : Bool) : Prop where
  left       : ∀ s, kind s → leftBy (f s) = some { write s with responses := given ++ s.responses }
  outcome    : ∀ s, kind s → completes (f s) = c
  one_answer : c = true → ∃ r, given = [r]

/-- What a decoder command does to a decoder `d` under parameters `p`. -/
abbrev DecEffect (i : Instr) (p : Params) (d d' : DecUnit) (given : List Response) (c : Bool) : Prop :=
  HasEffect (exec i) (fun s => s.params = p ∧ s.dec = d) (fun s => { s with dec := d' }) given c

/-- What an encoder command does to an encoder `e` under parameters `p`. -/
abbrev EncEffect (i : Instr) (p : Params) (e e' : EncUnit) (given : List Response) (c : Bool) : Prop :=
  HasEffect (exec i) (fun s => s.params = p ∧ s.enc = e) (fun s => { s with enc := e' }) given c

/-- The byte a buffer element gives to a read: the one it holds, below the bound (R53). -/
def Memory.readBelow (m : Memory) (bound i : Nat) : Option Byte := if i < bound then m.read i else none

/-- A buffer read answers that byte, or faults where there is none. -/
theorem respondElement_eq_elim (m : Memory) (bound : Nat) (idx : Index) (s : State) :
    respondElement m bound idx s
      = (m.readBelow bound idx.toNat).elim (raiseAccessOutOfRange s) fun v => respond v s := by
  unfold respondElement Memory.readBelow
  split
  · cases m.read idx.toNat <;> rfl
  · rfl

section
variable {f : State → Host.Outcome State Fault Refusal} {kind : State → Prop} {write : State → State}

/-- A value answered after a write that gives no answer. -/
theorem hasEffect_of_respond {w : Nat} (v : BitVec w)
    (h : ∀ s, kind s → f s = respond v (write s) ∧ (write s).responses = s.responses) :
    HasEffect f kind write [⟨true, v.setWidth 32⟩] true where
  left s hs := by
    obtain ⟨hf, hw⟩ := h s hs
    rw [hf, ← hw]
    rfl
  outcome s hs := by
    rw [(h s hs).1]
    rfl
  one_answer _ := ⟨_, rfl⟩

/-- A buffer read, which writes nothing. -/
theorem hasEffect_of_respondElement (m : Memory) (bound : Nat) (idx : Index)
    (h : ∀ s, kind s → f s = respondElement m bound idx s ∧ write s = s) :
    HasEffect f kind write
      ((m.readBelow bound idx.toNat).elim [⟨false, 2⟩] fun v => [⟨true, v.setWidth 32⟩])
      (m.readBelow bound idx.toNat).isSome := by
  simp only [respondElement_eq_elim] at h
  generalize m.readBelow bound idx.toNat = answer at h ⊢
  cases answer with
  | some v => exact hasEffect_of_respond v fun s hs => ⟨by rw [(h s hs).1, (h s hs).2]; rfl, by rw [(h s hs).2]⟩
  | none =>
    refine ⟨fun s hs => ?_, fun s hs => ?_, nofun⟩ <;> rw [(h s hs).1]
    · rw [(h s hs).2]
      rfl
    · rfl

end

/-- What leaves a state and completes goes on from that state. -/
theorem eq_next_of_completes {o : Host.Outcome State Fault Refusal} {t : State} (h : leftBy o = some t)
    (hc : completes o = true) : o = .next t := by
  cases o with
  | next u => exact congrArg Host.Outcome.next (Option.some.inj h)
  | fault r => cases hc
  | refused r => cases hc

/-- An effect that completes from a state leads to the state it writes. -/
theorem HasEffect.next {f : State → Host.Outcome State Fault Refusal} {kind : State → Prop}
    {write : State → State} {given : List Response} (h : HasEffect f kind write given true) {s : State}
    (hs : kind s) : f s = .next { write s with responses := given ++ s.responses } :=
  eq_next_of_completes (h.left s hs) (h.outcome s hs)

/-- An effect that has led to a next state completes, and has written that state. -/
theorem HasEffect.of_next {f : State → Host.Outcome State Fault Refusal} {kind : State → Prop}
    {write : State → State} {given : List Response} {c : Bool} (h : HasEffect f kind write given c) {s t : State}
    (hs : kind s) (hf : f s = .next t) :
    c = true ∧ t = { write s with responses := given ++ s.responses } := by
  have left := h.left s hs
  rw [hf] at left
  refine ⟨?_, Option.some.inj left⟩
  rw [← h.outcome s hs, hf]
  rfl

/-! ### Decoders of one view -/

/-- Every decoder has its own view. -/
theorem SameView.refl (d : DecUnit) : SameView d d := ⟨rfl, fun _ _ => rfl⟩

section
variable {d e : DecUnit}

/-- Decoders of one view agree in every register. -/
theorem SameView.registers_eq (h : SameView d e) : d.st = e.st ∧ d.esc = e.esc ∧ d.lenAcc = e.lenAcc
    ∧ d.cnt = e.cnt ∧ d.srcAcc = e.srcAcc ∧ d.dstAcc = e.dstAcc ∧ d.status = e.status := by
  rw [h.eq_with]
  exact ⟨rfl, rfl, rfl, rfl, rfl, rfl, rfl⟩

/-- Decoders of one view have the same number of readable elements. -/
theorem SameView.cnt_eq (h : SameView d e) : d.cnt = e.cnt := by
  rw [h.eq_with]

/-- The relation is symmetric. -/
theorem SameView.symm (h : SameView d e) : SameView e d :=
  ⟨h.registers.symm, fun i hi => (h.payload i (h.cnt_eq ▸ hi)).symm⟩

/-- Reads of PBUF below `cnt` give the same. -/
theorem SameView.readBelow_eq (h : SameView d e) (i : Nat) :
    d.pbuf.readBelow d.cnt.toNat i = e.pbuf.readBelow e.cnt.toNat i := by
  unfold Memory.readBelow
  rw [← h.cnt_eq]
  split
  next hi => exact h.payload i hi
  next => rfl

/-- The same escape flag on both sides keeps the view. -/
theorem SameView.with_esc (h : SameView d e) (esc : Bool) :
    SameView { d with esc := esc } { e with esc := esc } :=
  ⟨by rw [h.eq_with], h.payload⟩

/-- The same parser state and status on both sides keep the view. -/
theorem SameView.with_state (h : SameView d e) (st : DecState) (status : Status) :
    SameView { d with st := st, status := status } { e with st := st, status := status } :=
  ⟨by rw [h.eq_with], h.payload⟩

/-- Cleared decoders have one view, whatever they held (R151). -/
theorem sameView_clear (d e : DecUnit) : SameView d.clear e.clear :=
  ⟨rfl, fun i hi => absurd hi (Nat.not_lt_zero i)⟩

/-- A cleared decoder has the view of a reset one (R210). -/
theorem sameView_clear_reset (d : DecUnit) : SameView d.clear State.reset.dec :=
  sameView_clear d State.reset.dec

/-- A logical byte keeps the view: on both sides it writes the same payload byte, or none. -/
theorem SameView.takeLogical {p : Params} {v : Byte} {d' : DecUnit} (h : SameView d e)
    (hd : DecUnit.takeLogical p v d = some d') :
    ∃ e', DecUnit.takeLogical p v e = some e' ∧ SameView d' e' := by
  rw [h.eq_with, DecUnit.takeLogical_pbuf, Option.map_eq_some_iff] at hd
  obtain ⟨e', he, rfl⟩ := hd
  refine ⟨e', he, rfl, fun i hi => ?_⟩
  have hcnt := congrArg BitVec.toNat h.cnt_eq
  obtain ⟨hs, hpbuf, hcnt'⟩ | ⟨hs, hpbuf, hcnt'⟩ := DecUnit.takeLogical_buffer he
  · simp only [if_neg hs, hpbuf]
    exact h.payload i (by rw [hcnt, ← hcnt']; exact hi)
  · simp only [if_pos hs, hpbuf]
    by_cases hlast : i = e.cnt.toNat
    · rw [hlast, Memory.read_write_same, Memory.read_write_same]
    · rw [Memory.read_write_other _ _ _ _ hlast, Memory.read_write_other _ _ _ _ hlast]
      simp only [hcnt'] at hi
      exact h.payload i (by bv_omega)

/-- Steps (4) and (5) of R140 keep the view and answer alike. -/
theorem SameView.takeWireByte {p : Params} {b : Byte} {d' : DecUnit} {r : Status} (h : SameView d e)
    (hd : d.takeWireByte p b = some (d', r)) :
    ∃ e', e.takeWireByte p b = some (e', r) ∧ SameView d' e' := by
  obtain ⟨-, hesc, -⟩ := h.registers_eq
  unfold DecUnit.takeWireByte at hd ⊢
  rw [hesc] at hd
  split at hd
  next esc _ =>
    cases hd
    exact ⟨_, rfl, h.with_esc esc⟩
  next esc v _ =>
    rw [Option.map_eq_some_iff] at hd
    obtain ⟨d'', hd, hr⟩ := hd
    cases hr
    obtain ⟨e', he, view⟩ := (h.with_esc esc).takeLogical hd
    obtain ⟨-, -, -, -, -, -, hstatus⟩ := view.registers_eq
    simp only [he, hstatus]
    exact ⟨e', rfl, view⟩

/-- A byte keeps the view and is answered alike (R140). -/
theorem SameView.push {p : Params} {b : Byte} {d' : DecUnit} {r : Status} (h : SameView d e)
    (hd : d.push p b = some (d', r)) : ∃ e', e.push p b = some (e', r) ∧ SameView d' e' := by
  obtain ⟨hst, hesc, -, -, -, -, hstatus⟩ := h.registers_eq
  unfold DecUnit.push at hd ⊢
  rw [hst, hesc, hstatus] at hd
  split at hd
  next hc =>
    cases hd
    exact ⟨e, if_pos hc, h⟩
  next hc =>
    rw [if_neg hc]
    split at hd
    next hc =>
      cases hd
      exact ⟨_, if_pos hc, (h.with_state .err .specialCharErr).with_esc false⟩
    next hc =>
      rw [if_neg hc]
      split at hd
      next hc =>
        rw [if_pos hc]
        split at hd
        next hc =>
          cases hd
          exact ⟨_, if_pos hc, (h.with_esc e.esc).with_state .sizeHigh .inProgress⟩
        next hc =>
          cases hd
          exact ⟨e, if_neg hc, h⟩
      next hc =>
        rw [if_neg hc]
        exact h.takeWireByte hd

/-- Decoders of one view are stopped by the same bytes. -/
theorem SameView.push_none {p : Params} {b : Byte} (h : SameView d e) (hd : d.push p b = none) :
    e.push p b = none := by
  cases he : e.push p b with
  | none => rfl
  | some er =>
    obtain ⟨d', hd', -⟩ := h.symm.push he
    cases hd.symm.trans hd'

/-- DEC_PUSH_BYTE that the unit takes. -/
theorem decEffect_of_push {p : Params} {b : Byte} {d' : DecUnit} {r : Status}
    (h : d.push p b = some (d', r)) :
    DecEffect (.decPushByte b) p d d' [⟨true, r.code.setWidth 32⟩] true := by
  refine hasEffect_of_respond r.code ?_
  rintro s ⟨rfl, rfl⟩
  exact ⟨execDecPushByte_of_push h, rfl⟩

/-- DEC_PUSH_BYTE that stops because PBUF has no element for the byte: it gives no answer (log 7). -/
theorem decEffect_of_push_none {p : Params} {b : Byte} (h : d.push p b = none) :
    DecEffect (.decPushByte b) p d d [] false := by
  have stops (s : State) (hs : s.params = p ∧ s.dec = d) :
      exec (.decPushByte b) s = .fault (.noPbufElement s) := by
    obtain ⟨rfl, rfl⟩ := hs
    simp only [exec, execDecPushByte, h]
  refine ⟨fun s hs => ?_, fun s hs => ?_, nofun⟩
  · rw [stops s hs, ← hs.2]
    rfl
  · rw [stops s hs]
    rfl

/-- A read of a register. -/
theorem decEffect_of_register {i : Instr} {w : Nat} (value : DecUnit → BitVec w)
    (h : ∀ s, exec i s = respond (value s.dec) s) (p : Params) (d : DecUnit) :
    DecEffect i p d d [⟨true, (value d).setWidth 32⟩] true := by
  refine hasEffect_of_respond (value d) ?_
  rintro s ⟨rfl, rfl⟩
  exact ⟨h s, rfl⟩

/-- DEC_READ_BYTE. -/
theorem decEffect_decReadByte (idx : Index) (p : Params) (d : DecUnit) :
    DecEffect (.decReadByte idx) p d d
      ((d.pbuf.readBelow d.cnt.toNat idx.toNat).elim [⟨false, 2⟩] fun v => [⟨true, v.setWidth 32⟩])
      (d.pbuf.readBelow d.cnt.toNat idx.toNat).isSome := by
  refine hasEffect_of_respondElement d.pbuf d.cnt.toNat idx ?_
  rintro s ⟨rfl, rfl⟩
  exact ⟨rfl, rfl⟩

/-- DEC_CLEAR. -/
theorem decEffect_decClear (p : Params) (d : DecUnit) : DecEffect .decClear p d d.clear [⟨true, 0⟩] true := by
  refine hasEffect_of_respond (0#32) ?_
  rintro s ⟨rfl, rfl⟩
  exact ⟨rfl, rfl⟩

/-- A decoder command does alike to decoders of one view: the same answers and outcome, and again one view. -/
theorem SameView.exists_decEffect {i : Instr} (h : SameView d e) (hi : isEncCommand i = false) (p : Params) :
    ∃ d' e' given c, DecEffect i p d d' given c ∧ DecEffect i p e e' given c ∧ SameView d' e' := by
  obtain ⟨-, -, hlen, -, hsrc, hdst, hstatus⟩ := h.registers_eq
  cases i with
  | encAssemble | encReadLen | encReadByte => cases hi
  | decPushByte b =>
    cases hd : d.push p b with
    | none => exact ⟨d, e, _, _, decEffect_of_push_none hd, decEffect_of_push_none (h.push_none hd), h⟩
    | some dr =>
      obtain ⟨e', he, view⟩ := h.push hd
      exact ⟨dr.1, e', _, _, decEffect_of_push hd, decEffect_of_push he, view⟩
  | decClear => exact ⟨_, _, _, _, decEffect_decClear p d, decEffect_decClear p e, sameView_clear d e⟩
  | decReadStatus =>
    exact ⟨d, e, _, _, decEffect_of_register (fun d => d.status.code) (fun _ => rfl) p d,
      hstatus ▸ decEffect_of_register (fun d => d.status.code) (fun _ => rfl) p e, h⟩
  | decReadLen =>
    exact ⟨d, e, _, _, decEffect_of_register DecUnit.lenAcc (fun _ => rfl) p d,
      hlen ▸ decEffect_of_register DecUnit.lenAcc (fun _ => rfl) p e, h⟩
  | decReadSrc =>
    exact ⟨d, e, _, _, decEffect_of_register DecUnit.srcAcc (fun _ => rfl) p d,
      hsrc ▸ decEffect_of_register DecUnit.srcAcc (fun _ => rfl) p e, h⟩
  | decReadDst =>
    exact ⟨d, e, _, _, decEffect_of_register DecUnit.dstAcc (fun _ => rfl) p d,
      hdst ▸ decEffect_of_register DecUnit.dstAcc (fun _ => rfl) p e, h⟩
  | decReadByte idx =>
    exact ⟨d, e, _, _, decEffect_decReadByte idx p d, h.readBelow_eq idx.toNat ▸ decEffect_decReadByte idx p e, h⟩

end

/-- A decoder command's effect, as a function of the parameters and the decoder. -/
theorem exists_decEffect {i : Instr} (hi : isEncCommand i = false) (p : Params) (d : DecUnit) :
    ∃ d' given c, DecEffect i p d d' given c := by
  obtain ⟨d', -, given, c, effect, -, -⟩ := (SameView.refl d).exists_decEffect hi p
  exact ⟨d', given, c, effect⟩

/-- Settles O51: cleared decoders differ in PBUF only, of which no element is readable; and a decoder command's effect
depends on the view only. -/
theorem decoderCommandsKeepTheView : Obligations.DecoderCommandsKeepTheView := by
  refine ⟨sameView_clear_reset, fun i s u t hi hp view h => ?_⟩
  obtain ⟨d', e', given, c, onS, onU, view'⟩ := view.exists_decEffect hi s.params
  obtain rfl := Option.some.inj ((onS.left s ⟨rfl, rfl⟩).symm.trans h)
  exact ⟨_, given, onU.left u ⟨hp.symm, rfl⟩,
    (onU.outcome u ⟨hp.symm, rfl⟩).trans (onS.outcome s ⟨rfl, rfl⟩).symm, view', hp, rfl, rfl⟩

/-! ### Runs of decoder commands (R211, R224) -/

/-- A run whose first command does not complete ends with it. -/
theorem execAll_cons_of_stops {i : Instr} {s : State} (h : completes (exec i s) = false) (is : List Instr) :
    execAll (i :: is) s = exec i s := by
  rw [execAll]
  cases hi : exec i s with
  | next t =>
    rw [hi] at h
    cases h
  | fault r => rfl
  | refused r => rfl

/-- A run whose first command completes goes on from the state it leaves. -/
theorem execAll_cons_of_next {i : Instr} {s t : State} (h : exec i s = .next t) (is : List Instr) :
    execAll (i :: is) s = execAll is t := by
  rw [execAll, h]

/-- Two runs of decoder commands from decoders of one view, with the same answers so far, end alike and give the same
answers. -/
theorem execAll_of_sameView {is : List Instr} (his : ∀ i ∈ is, isEncCommand i = false) {s u : State}
    (hp : s.params = u.params) (view : SameView s.dec u.dec) (hr : s.responses = u.responses) :
    answersOf (execAll is s) = answersOf (execAll is u)
      ∧ completes (execAll is s) = completes (execAll is u) := by
  induction is generalizing s u with
  | nil => exact ⟨congrArg some hr, rfl⟩
  | cons i is ih =>
    obtain ⟨hi, his⟩ := List.forall_mem_cons.mp his
    obtain ⟨d', e', given, c, onS, onU, view'⟩ := view.exists_decEffect hi s.params
    cases c with
    | true =>
      rw [execAll_cons_of_next (onS.next ⟨rfl, rfl⟩), execAll_cons_of_next (onU.next ⟨hp.symm, rfl⟩)]
      exact ih his hp view' (congrArg (given ++ ·) hr)
    | false =>
      have outcomeS := onS.outcome s ⟨rfl, rfl⟩
      have outcomeU := onU.outcome u ⟨hp.symm, rfl⟩
      rw [execAll_cons_of_stops outcomeS, execAll_cons_of_stops outcomeU]
      refine ⟨?_, outcomeS.trans outcomeU.symm⟩
      rw [answersOf, answersOf, onS.left s ⟨rfl, rfl⟩, onU.left u ⟨hp.symm, rfl⟩]
      exact congrArg (some <| given ++ ·) hr

/-- Settles O46: the cleared and the reset decoder have one view. -/
theorem clearIsIndistinguishableFromReset : Obligations.ClearIsIndistinguishableFromReset :=
  fun s _ his => execAll_of_sameView his rfl (sameView_clear_reset s.dec) rfl

/-! ### The encoder's commands -/

section
variable (p : Params) (e : EncUnit)

/-- EncSizeViolation sets the fault flag (R185). -/
theorem encEffect_of_violation {i : Instr}
    (h : ∀ s, s.params = p → s.enc = e → exec i s = raiseEncSizeViolation s) :
    EncEffect i p e { e with encFault := true } [⟨false, 1⟩] false := by
  refine ⟨?_, ?_, nofun⟩
  · rintro s ⟨rfl, rfl⟩
    rw [h s rfl rfl]
    rfl
  · rintro s ⟨rfl, rfl⟩
    rw [h s rfl rfl]
    rfl

/-- ENC_ASSEMBLE of a payload of LEN bytes: the flag and LEN against CAPACITY decide. -/
theorem exists_encEffect_encAssemble {len : Half} (src dst : Half) {payload : List Byte}
    (hl : payload.length = len.toNat) :
    ∃ e' given c, EncEffect (.encAssemble len src dst payload) p e e' given c := by
  by_cases hc : e.encFault = true ∨ p.capacity < len
  · refine ⟨_, _, _, encEffect_of_violation p e ?_⟩
    rintro s rfl rfl
    exact execEncAssemble_of_violation hl hc
  · obtain ⟨hf, hlt⟩ := not_or.mp hc
    refine ⟨e.emit (frameBytes p len src dst payload), _, _, hasEffect_of_respond
      (BitVec.ofNat 18 (frameBytes p len src dst payload).length) ?_⟩
    rintro s ⟨rfl, rfl⟩
    refine ⟨?_, rfl⟩
    rw [exec, execEncAssemble, if_pos hl, whenEncoderEnabled, if_neg hf, if_neg hlt]
    rfl

/-- ENC_READ_LEN. -/
theorem exists_encEffect_encReadLen : ∃ e' given c, EncEffect .encReadLen p e e' given c := by
  cases hf : e.encFault with
  | true =>
    refine ⟨_, _, _, encEffect_of_violation p e ?_⟩
    rintro s rfl rfl
    exact whenEncoderEnabled_of_set hf _
  | false =>
    refine ⟨e, _, _, hasEffect_of_respond e.olen ?_⟩
    rintro s ⟨rfl, rfl⟩
    exact ⟨whenEncoderEnabled_of_clear hf _, rfl⟩

/-- ENC_READ_BYTE. -/
theorem exists_encEffect_encReadByte (idx : Index) :
    ∃ e' given c, EncEffect (.encReadByte idx) p e e' given c := by
  cases hf : e.encFault with
  | true =>
    refine ⟨_, _, _, encEffect_of_violation p e ?_⟩
    rintro s rfl rfl
    exact whenEncoderEnabled_of_set hf _
  | false =>
    refine ⟨e, _, _, hasEffect_of_respondElement e.obuf e.olen.toNat idx ?_⟩
    rintro s ⟨rfl, rfl⟩
    exact ⟨whenEncoderEnabled_of_clear hf _, rfl⟩

end

/-- The effect of an encoder command that reached the machine, as a function of the parameters and the encoder. -/
theorem exists_encEffect {i : Instr} {s t : State} (hi : isEncCommand i = true)
    (h : leftBy (exec i s) = some t) : ∃ e' given c, EncEffect i s.params s.enc e' given c := by
  cases i with
  | encAssemble len src dst payload =>
    exact exists_encEffect_encAssemble s.params s.enc src dst (length_of_leftBy_encAssemble h)
  | encReadLen => exact exists_encEffect_encReadLen s.params s.enc
  | encReadByte idx => exact exists_encEffect_encReadByte s.params s.enc idx
  | decPushByte | decClear | decReadStatus | decReadLen | decReadSrc | decReadDst | decReadByte => cases hi

/-! ### Both units (R11) -/

/-- Settles O43: the effect on the own unit is a function of it and the parameters, and nothing else is written. -/
theorem unitsDoNotInterfere : Obligations.UnitsDoNotInterfere := by
  refine ⟨fun i s t hi h => ?_, fun i s t hi h => ?_, fun i s t d hi h => ?_, fun i s t e hi h => ?_⟩
  · obtain ⟨e', given, c, effect⟩ := exists_encEffect hi h
    rw [← Option.some.inj ((effect.left s ⟨rfl, rfl⟩).symm.trans h)]
  · obtain ⟨d', given, c, effect⟩ := exists_decEffect hi s.params s.dec
    rw [← Option.some.inj ((effect.left s ⟨rfl, rfl⟩).symm.trans h)]
  · obtain ⟨e', given, c, effect⟩ := exists_encEffect hi h
    rw [← Option.some.inj ((effect.left s ⟨rfl, rfl⟩).symm.trans h)]
    exact ⟨effect.left { s with dec := d } ⟨rfl, rfl⟩,
      (effect.outcome { s with dec := d } ⟨rfl, rfl⟩).trans (effect.outcome s ⟨rfl, rfl⟩).symm⟩
  · obtain ⟨d', given, c, effect⟩ := exists_decEffect hi s.params s.dec
    rw [← Option.some.inj ((effect.left s ⟨rfl, rfl⟩).symm.trans h)]
    exact ⟨effect.left { s with enc := e } ⟨rfl, rfl⟩,
      (effect.outcome { s with enc := e } ⟨rfl, rfl⟩).trans (effect.outcome s ⟨rfl, rfl⟩).symm⟩

/-- Settles O44: each command's effect on its own unit is the same in either order. -/
theorem commandsOfTheTwoUnitsCommute : Obligations.CommandsOfTheTwoUnitsCommute := by
  intro i j s t u hi hj hst htu
  obtain ⟨e', given, c, onEnc⟩ := exists_encEffect hi (by rw [hst, leftBy_next])
  obtain ⟨d', given', c', onDec⟩ := exists_decEffect hj s.params s.dec
  obtain ⟨rfl, ht⟩ := onEnc.of_next ⟨rfl, rfl⟩ hst
  obtain ⟨rfl, hu⟩ := onDec.of_next (by rw [ht]; exact ⟨rfl, rfl⟩) htu
  obtain ⟨a, rfl⟩ := onEnc.one_answer rfl
  obtain ⟨b, rfl⟩ := onDec.one_answer rfl
  subst ht hu
  exact ⟨_, _, onDec.next (s := s) ⟨rfl, rfl⟩,
    onEnc.next (s := { s with dec := d', responses := [b] ++ s.responses }) ⟨rfl, rfl⟩,
    rfl, rfl, rfl, rfl, a, b, rfl, rfl⟩

end Sys2Proof.Machine
end

section
/-! The statements on DEC_PUSH_BYTE and the decoder's reads in the states of the invariant (spec/10_state.md section 3,
spec/42_decoder.md sections 1 and 3): what the invariant says of the status, that a byte always completes, and what
it leaves unchanged. -/

namespace Sys2Proof.Machine

/-! ### What the invariant says (R26 to R32, R150) -/

/-- The status R32 gives each parser state; ERR has one of three. -/
def DecState.allows : DecState → Status → Prop
  | .ready, status => status = .idle
  | .done, status => status = .finished
  | .err, status => status = .sizeErr ∨ status = .checksumErr ∨ status = .specialCharErr
  | _, status => status = .inProgress

section
variable {p : Params} {d : DecUnit}

/-- The invariant's status is the one of R32. -/
theorem DecPhase.allows (h : DecPhase p d) : d.st.allows d.status := by
  cases hs : d.st <;> simp only [DecPhase, hs] at h
  case err =>
    obtain ⟨-, ⟨hst, -⟩ | ⟨hst, -⟩ | ⟨hst, -⟩⟩ := h
    · exact .inl hst
    · exact .inr (.inl hst)
    · exact .inr (.inr hst)
  all_goals exact h.1

/-- The status tells READY, DONE and the frame states apart (R32). -/
theorem DecState.status_iff {st : DecState} {status : Status} (h : st.allows status) :
    (st = .ready ↔ status = .idle) ∧ (st = .done ↔ status = .finished)
      ∧ (midFrame st = true ↔ status = .inProgress) := by
  cases st <;> simp only [DecState.allows] at h
  case err => obtain rfl | rfl | rfl := h <;> decide
  all_goals subst h; decide

/-- The address states need ADDRESS_EN = 1 (R150). -/
theorem DecPhase.addressEn (h : DecPhase p d)
    (hs : d.st ∈ [DecState.srcAddrHigh, .srcAddrLow, .dstAddrHigh, .dstAddrLow]) : p.addressEn = true := by
  simp only [List.mem_cons, List.not_mem_nil, or_false] at hs
  obtain hs | hs | hs | hs := hs <;>
    · simp only [DecPhase, hs] at h
      obtain ⟨-, ha, -⟩ := h
      exact ha

/-- CHECKSUM needs CHECKSUM_EN = 1 (R150). -/
theorem DecPhase.checksumEn (h : DecPhase p d) (hs : d.st = .checksum) : p.checksumEn = true := by
  simp only [DecPhase, hs] at h
  obtain ⟨-, hck, -⟩ := h
  exact hck

/-- `esc` is set inside frames only (R27). -/
theorem DecPhase.midFrame_of_esc (h : DecPhase p d) (he : d.esc = true) : midFrame d.st = true := by
  cases hs : d.st <;> simp only [DecPhase, hs, he] at h
  case ready | done | err => simp at h
  all_goals rfl

/-- In DATA PBUF has an element for the next byte (R29, R33). -/
theorem DecPhase.cnt_lt_capacity (h : DecPhase p d) (hs : d.st = .data) : d.cnt < p.capacity := by
  simp only [DecPhase, hs] at h
  obtain ⟨-, hl, hlt⟩ := h
  bv_omega

end

/-- Settles O41: each clause by the invariant's relation of the registers to the parser state, or its buffers. -/
theorem statesFollowTheParameters : Obligations.StatesFollowTheParameters := by
  intro s hinv
  have phase := hinv.dec.phase
  obtain ⟨hready, hdone, hframe⟩ := DecState.status_iff phase.allows
  exact ⟨phase.cnt_le_lenAcc, hinv.dec.buffer.bounded, hready, hdone, hframe, phase.addressEn, phase.checksumEn,
    phase.midFrame_of_esc, hinv.enc.buffer.bounded⟩

/-! ### DEC_PUSH_BYTE completes (R140) -/

section
variable {p : Params} {d : DecUnit}

/-- A logical byte is taken in every state of the invariant: in DATA, PBUF has an element for it. -/
theorem DecInv.exists_takeLogical (h : DecInv p d) (v : Byte) : ∃ e, DecUnit.takeLogical p v d = some e := by
  cases hs : d.st with
  | data =>
    rw [DecUnit.takeLogical_of_data hs]
    exact ⟨_, DecUnit.takeData_of_lt v (h.phase.cnt_lt_capacity hs)⟩
  | ready | sizeHigh | sizeLow | srcAddrHigh | srcAddrLow | dstAddrHigh | dstAddrLow | checksum | done | err =>
    simp only [DecUnit.takeLogical, hs]
    exact ⟨_, rfl⟩

/-- A byte is taken in every state of the invariant, and the answer is the status it leaves (R150 row by row). -/
theorem DecInv.exists_push (h : DecInv p d) (b : Byte) : ∃ e, d.push p b = some (e, e.status) := by
  by_cases hd : d.st = .done ∨ d.st = .err
  · exact ⟨d, DecUnit.push_absorb p b hd⟩
  by_cases hr : d.st = .ready
  · obtain ⟨he, hst, -⟩ := h.registers_of_ready hr
    by_cases hb : b = 0x7E
    · subst hb
      exact ⟨_, DecUnit.push_ready_flag p hr⟩
    · exact ⟨d, by rw [hst, DecUnit.push_ready_other p hr he hb]⟩
  have hm : midFrame d.st = true := by cases hs : d.st <;> simp_all [midFrame]
  by_cases hb : b = 0x7E ∨ (b = 0x7D ∧ d.esc = true)
  · exact ⟨_, DecUnit.push_special p hm hb⟩
  obtain ⟨h7E, h7D⟩ := not_or.mp hb
  by_cases hesc : b = 0x7D
  · subst hesc
    have he : d.esc = false := by simpa using h7D
    refine ⟨{ d with esc := true }, ?_⟩
    rw [DecUnit.push_escape p hm he, ← h.phase.status_of_midFrame hm]
  · obtain ⟨e, ht⟩ := (h.with_esc hm false).exists_takeLogical (logicalOf d.esc b)
    exact ⟨e, by rw [DecUnit.push_other p hm h7E hesc, ht]; rfl⟩

end

/-- Settles O31: the unit takes the byte and answers the status it leaves. -/
theorem pushByteAlwaysCompletes : Obligations.PushByteAlwaysCompletes := by
  intro s b hinv
  obtain ⟨d, hd⟩ := hinv.dec.exists_push b
  exact ⟨_, execDecPushByte_of_push hd, rfl⟩

/-- Settles O25: row 7 of R150. -/
theorem escapeByteIsConsumed : Obligations.EscapeByteIsConsumed :=
  fun _ hm he => exec_decPushByte_of_escape hm he

/-! ### What DEC_PUSH_BYTE leaves unchanged (10_state.md section 3) -/

/-- The table's column 'written by', for one byte that leads from `d` to `e`. -/
structure PushFrame (d e : DecUnit) : Prop where
  lenAcc  : d.st ≠ .sizeHigh → d.st ≠ .sizeLow → e.lenAcc = d.lenAcc
  srcAcc  : d.st ≠ .srcAddrHigh → d.st ≠ .srcAddrLow → e.srcAcc = d.srcAcc
  dstAcc  : d.st ≠ .dstAddrHigh → d.st ≠ .dstAddrLow → e.dstAcc = d.dstAcc
  cnt     : d.st ≠ .data → e.cnt = d.cnt
  csumAcc : midFrame d.st = false ∨ d.st = .checksum → e.csumAcc = d.csumAcc
  pbuf    : ∀ i, (d.st ≠ .data ∨ i ≠ d.cnt.toNat) → e.pbuf.read i = d.pbuf.read i

/-- A change of `st`, `status` and `esc` only is inside every frame. -/
theorem pushFrame_with_parser (d : DecUnit) (st : DecState) (status : Status) (esc : Bool) :
    PushFrame d { d with st := st, status := status, esc := esc } :=
  ⟨fun _ _ => rfl, fun _ _ => rfl, fun _ _ => rfl, fun _ => rfl, fun _ => rfl, fun _ _ => rfl⟩

/-- Entering ERR or DONE on the checksum changes `st` and `status` only. -/
theorem DecUnit.takeChecksum_eq_with (v : Byte) (d : DecUnit) :
    ∃ st status, d.takeChecksum v = { d with st := st, status := status } := by
  unfold DecUnit.takeChecksum
  split
  · exact ⟨_, _, rfl⟩
  · exact ⟨_, _, rfl⟩

/-- A payload byte changes the sum, PBUF, `cnt`, `st` and `status` only. -/
theorem DecUnit.takeData_eq_with {p : Params} {v : Byte} {d e : DecUnit} (h : d.takeData p v = some e) :
    ∃ st status, e = { d with
      csumAcc := d.csumAcc + v
      pbuf := d.pbuf.write d.cnt.toNat v
      cnt := d.cnt + 1
      st := st
      status := status } := by
  rw [DecUnit.takeData] at h
  split at h
  · cases h
    split
    · obtain ⟨st, status, he⟩ := DecUnit.exitData_eq_with p
        { d.addToSum v with pbuf := d.pbuf.write d.cnt.toNat v, cnt := d.cnt + 1 }
      exact ⟨st, status, he⟩
    · exact ⟨d.st, d.status, rfl⟩
  · cases h

/-- Which accumulators a logical byte inside a frame writes, by the state it is taken in. -/
theorem DecUnit.takeLogical_accumulators {p : Params} {v : Byte} {d e : DecUnit} (hm : midFrame d.st = true)
    (h : DecUnit.takeLogical p v d = some e) :
    (d.st ≠ .sizeHigh → d.st ≠ .sizeLow → e.lenAcc = d.lenAcc)
      ∧ (d.st ≠ .srcAddrHigh → d.st ≠ .srcAddrLow → e.srcAcc = d.srcAcc)
      ∧ (d.st ≠ .dstAddrHigh → d.st ≠ .dstAddrLow → e.dstAcc = d.dstAcc)
      ∧ (d.st = .checksum → e.csumAcc = d.csumAcc) := by
  cases hs : d.st with
  | ready | done | err => rw [hs] at hm; cases hm
  | sizeHigh | srcAddrHigh | srcAddrLow | dstAddrHigh =>
    simp only [DecUnit.takeLogical, hs] at h
    cases h
    simp
  | sizeLow =>
    obtain ⟨status, he⟩ := DecUnit.takeSizeLow_eq_with p v d
    rw [DecUnit.takeLogical_of_sizeLow hs, he] at h
    cases h
    simp
  | dstAddrLow =>
    rw [DecUnit.takeLogical_of_dstAddrLow hs, DecUnit.enterData_eq] at h
    cases h
    simp
  | data =>
    rw [DecUnit.takeLogical_of_data hs] at h
    obtain ⟨st, status, rfl⟩ := DecUnit.takeData_eq_with h
    simp
  | checksum =>
    obtain ⟨st, status, he⟩ := DecUnit.takeChecksum_eq_with v d
    rw [DecUnit.takeLogical_of_checksum hs, he] at h
    cases h
    simp

/-- A logical byte inside a frame writes what the table says. -/
theorem pushFrame_of_takeLogical {p : Params} {v : Byte} {d e : DecUnit} (hm : midFrame d.st = true)
    (h : DecUnit.takeLogical p v d = some e) : PushFrame d e := by
  obtain ⟨hlen, hsrc, hdst, hcsum⟩ := DecUnit.takeLogical_accumulators hm h
  have sum : midFrame d.st = false ∨ d.st = .checksum → e.csumAcc = d.csumAcc :=
    fun hc => hcsum (hc.resolve_left (by simp [hm]))
  obtain ⟨hs, hpbuf, hcnt⟩ | ⟨hs, hpbuf, -⟩ := DecUnit.takeLogical_buffer h
  · exact ⟨hlen, hsrc, hdst, fun _ => hcnt, sum, fun i _ => by rw [hpbuf]⟩
  · refine ⟨hlen, hsrc, hdst, fun hne => absurd hs hne, sum, fun i hi => ?_⟩
    rw [hpbuf, Memory.read_write_other _ _ _ _ (hi.resolve_left (not_not.mpr hs))]

/-- A byte in READY changes `st`, `status` and `esc` only, whatever `esc` is. -/
theorem DecUnit.push_ready_eq_with {p : Params} {b : Byte} {d e : DecUnit} {r : Status} (hs : d.st = .ready)
    (h : d.push p b = some (e, r)) : ∃ st status esc, e = { d with st := st, status := status, esc := esc } := by
  simp only [DecUnit.push, hs, reduceCtorEq, or_self, if_false, if_true] at h
  split at h
  · cases h
    exact ⟨_, _, _, rfl⟩
  · split at h <;> cases h
    · exact ⟨_, _, d.esc, rfl⟩
    · exact ⟨d.st, d.status, d.esc, rfl⟩

/-- A byte that is taken writes what the table says (R150 row by row). -/
theorem pushFrame_of_push {p : Params} {b : Byte} {d e : DecUnit} {r : Status}
    (h : d.push p b = some (e, r)) : PushFrame d e := by
  obtain ⟨hs, -⟩ | ⟨-, rfl, -⟩ | ⟨-, -, -, rfl⟩ | ⟨-, -, rfl⟩ | ⟨-, -, -, -, rfl⟩ | ⟨hm, -, -, -, ht⟩ :=
    DecUnit.push_cases h
  · obtain ⟨st, status, esc, rfl⟩ := DecUnit.push_ready_eq_with hs h
    exact pushFrame_with_parser d st status esc
  · exact pushFrame_with_parser e e.st e.status e.esc
  · exact pushFrame_with_parser d .sizeHigh .inProgress d.esc
  · exact pushFrame_with_parser d .err .specialCharErr false
  · exact pushFrame_with_parser d d.st d.status true
  · have frame := pushFrame_of_takeLogical (d := { d with esc := false }) hm ht
    exact ⟨frame.lenAcc, frame.srcAcc, frame.dstAcc, frame.cnt, frame.csumAcc, frame.pbuf⟩

/-- Settles O32: the unit's frame, and that a completed DEC_PUSH_BYTE writes the decoder and one answer. -/
theorem pushByteChangesNothingElse : Obligations.PushByteChangesNothingElse := by
  intro s t b h
  obtain ⟨d, r, hd, rfl⟩ := execDecPushByte_next h
  have frame := pushFrame_of_push hd
  exact ⟨rfl, rfl, rfl, rfl, frame.lenAcc, frame.srcAcc, frame.dstAcc, frame.cnt, frame.csumAcc, frame.pbuf⟩

/-! ### The decoder's reads (R152 to R156) -/

/-- Settles O34: each accessor answers its register, and the invariant gives the registers' values without addresses
and in READY. -/
theorem accessorsAnswerTheRegisters : Obligations.AccessorsAnswerTheRegisters := by
  have accessors (s : State) : exec .decReadStatus s = .next (s.answer ⟨true, s.dec.status.code.setWidth 32⟩)
      ∧ exec .decReadLen s = .next (s.answer ⟨true, s.dec.lenAcc.setWidth 32⟩)
      ∧ exec .decReadSrc s = .next (s.answer ⟨true, s.dec.srcAcc.setWidth 32⟩)
      ∧ exec .decReadDst s = .next (s.answer ⟨true, s.dec.dstAcc.setWidth 32⟩) := ⟨rfl, rfl, rfl, rfl⟩
  refine ⟨accessors, fun s hinv ha => ?_, fun s hinv hs => ?_⟩
  · obtain ⟨-, -, hsrc, hdst⟩ := accessors s
    obtain ⟨hsrc0, hdst0⟩ := hinv.dec.addresses ha
    rw [hsrc, hdst, hsrc0, hdst0]
    exact ⟨rfl, rfl⟩
  · obtain ⟨hstatus, hlen, -, -⟩ := accessors s
    obtain ⟨-, hidle, hlen0, -⟩ := hinv.dec.registers_of_ready hs
    rw [hstatus, hlen, hidle, hlen0]
    exact ⟨rfl, rfl⟩

/-- In READY, and after a finished frame of declared length 0, nothing has been received. -/
theorem DecInv.cnt_eq_zero {p : Params} {d : DecUnit} (h : DecInv p d)
    (hs : d.st = .ready ∨ (d.st = .done ∧ d.lenAcc = 0)) : d.cnt = 0 := by
  obtain hs | ⟨hs, hlen⟩ := hs
  · obtain ⟨-, -, -, -, -, -, hcnt⟩ := h.registers_of_ready hs
    exact hcnt
  · have phase := h.phase
    simp only [DecPhase, hs] at phase
    obtain ⟨-, -, -, hcnt⟩ := phase
    exact hcnt.trans hlen

/-- Settles O35: below `cnt` the invariant gives PBUF's element a value; at and above it the read faults. -/
theorem readByteAnswersPbuf : Obligations.ReadByteAnswersPbuf := by
  refine ⟨fun s idx hinv hi => ?_, fun s idx => exec_decReadByte_of_le, fun s idx hinv hs => ?_⟩
  · obtain ⟨v, hv⟩ := Option.isSome_iff_exists.mp (hinv.dec.buffer.holds _ hi)
    exact ⟨v, hv, respondElement_of_read s hi hv⟩
  · exact exec_decReadByte_of_le (by rw [hinv.dec.cnt_eq_zero hs]; exact Nat.zero_le _)

end Sys2Proof.Machine
end
